-- ==== Sys2Proof/Word.lean ====
section
/-! DEFINITION. The machine's word and byte (00_scope.md R4, R7). -/

namespace Sys2Proof

/-- XLEN = 32: the width of every general register, of the pc, of every address and immediate
(00_scope.md R4, R7). `toNat` is the unsigned reading u(v), `toInt` the signed reading s(v). -/
abbrev Word := BitVec 32

/-- A byte of Memory is 8 bits (20_memory.md R40). -/
abbrev Byte := BitVec 8

/-- `INT32_MIN`, the vector 0x80000000 (00_scope.md R7). -/
abbrev int32Min : Word := 0x80000000#32

/-- "-1" as a 32-bit result: the vector 0xFFFFFFFF (00_scope.md R7). -/
abbrev allOnes : Word := 0xFFFFFFFF#32

end Sys2Proof
end

