-- ==== Sys2Proof/Machine/Bits.lean ====
section
/-! DEFINITION. Bit fields, sign and zero extension, and byte order, said once (00_scope.md R6, R8;
20_memory.md R43 to R45). -/

namespace Sys2Proof

/-- The slice w[lo+len-1 : lo] of an instruction word (00_scope.md R6). -/
def field (w : Word) (lo len : Nat) : BitVec len := w.extractLsb' lo len

/-- `sext_N(v)`: the low N bits of v, every higher bit a copy of bit N-1 (00_scope.md R8). -/
def sext (N : Nat) (v : Word) : Word := (v.setWidth N).signExtend 32

/-- `zext_N(v)`: the low N bits of v, every higher bit 0 (00_scope.md R8). -/
def zext (N : Nat) (v : Word) : Word := (v.setWidth N).setWidth 32

/-- The value of up to four bytes, the first the least significant (20_memory.md R43, R45). -/
def wordOfBytes : List Byte → Word
  | [] => 0
  | b :: bs => (wordOfBytes bs <<< 8) ||| b.setWidth 32

/-- The low n bytes of a value, the least significant first (20_memory.md R44, R45). -/
def bytesOfWord : Nat → Word → List Byte
  | 0, _ => []
  | n + 1, v => v.setWidth 8 :: bytesOfWord n (v >>> 8)

end Sys2Proof
end

