-- ==== Sys2Proof/Syntax.lean ====
section
/-! DEFINITION. The decoder's two output types: the tagged `DecodedInstruction` of 40_decoder_and_cycle.md
R91 and the 47 instructions of 30_encoding.md R85, and the eight reasons of R80 for which a word is none
of them. -/

namespace Sys2Proof

/-- A register index 0 to 31 (10_state.md R20). -/
abbrev Reg := Fin 32

/-- The decoder's output: one variant per format, each with exactly the fields that format defines, the
immediate always a 32-bit value already assembled and extended (40_decoder_and_cycle.md R91). -/
inductive DecodedInstruction where
  | r        (rd rs1 rs2 : Reg) (func3 : BitVec 3) (func7 : BitVec 7)
  | iArith   (rd rs1 : Reg) (func3 : BitVec 3) (func7 : BitVec 7) (imm : Word)
  | iLoad    (rd rs1 : Reg) (func3 : BitVec 3) (imm : Word)
  | iJalr    (rd rs1 : Reg) (func3 : BitVec 3) (imm : Word)
  | iSystem  (rd rs1 : Reg) (func3 : BitVec 3) (imm : Word)
  | s        (rs1 rs2 : Reg) (func3 : BitVec 3) (imm : Word)
  | b        (rs1 rs2 : Reg) (func3 : BitVec 3) (imm : Word)
  | uLui     (rd : Reg) (imm : Word)
  | uAuipc   (rd : Reg) (imm : Word)
  | j        (rd : Reg) (imm : Word)
  | unknown  (w : Word)
deriving DecidableEq, Repr

/-- Why a word is none of the 47 instructions: the eight cases of 30_encoding.md R80 in its order, and the
one case of a byte sequence too short to be a word (R60). -/
inductive Illegal where
  /-- (1) the opcode is none of the ten -/
  | unknownOpcode
  /-- (2) opcode 0110011 with a (func7, func3) that is none of the 18 -/
  | opFunc
  /-- (3) opcode 0010011, a shift with an unlisted func7 -/
  | shiftFunc7
  /-- (4) opcode 0000011 with func3 011, 110 or 111 -/
  | loadWidth
  /-- (5) opcode 0100011 with func3 011 to 111 -/
  | storeWidth
  /-- (6) opcode 1100011 with func3 010 or 011 -/
  | branchCond
  /-- (7) opcode 1100111 with func3 other than 000 -/
  | jalrFunc3
  /-- (8) opcode 1110011 and neither ECALL's nor EBREAK's word -/
  | systemWord
  /-- fewer than four bytes -/
  | truncated
deriving DecidableEq, Repr

/-- The 47 instructions (30_encoding.md R72 to R79, R85), operands in the assembler's order but for stores,
whose base register comes first as in the unit signature STORE(rs1, rs2, imm, width). `imm` is the decoder's
32-bit immediate (R63 to R67); `shamt` is imm[4:0] = w[24:20] of a shift-immediate (R73). -/
inductive Instr where
  | add    (rd rs1 rs2 : Reg)
  | sub    (rd rs1 rs2 : Reg)
  | sll    (rd rs1 rs2 : Reg)
  | slt    (rd rs1 rs2 : Reg)
  | sltu   (rd rs1 rs2 : Reg)
  | xor    (rd rs1 rs2 : Reg)
  | srl    (rd rs1 rs2 : Reg)
  | sra    (rd rs1 rs2 : Reg)
  | or     (rd rs1 rs2 : Reg)
  | and    (rd rs1 rs2 : Reg)
  | mul    (rd rs1 rs2 : Reg)
  | mulh   (rd rs1 rs2 : Reg)
  | mulhsu (rd rs1 rs2 : Reg)
  | mulhu  (rd rs1 rs2 : Reg)
  | div    (rd rs1 rs2 : Reg)
  | divu   (rd rs1 rs2 : Reg)
  | rem    (rd rs1 rs2 : Reg)
  | remu   (rd rs1 rs2 : Reg)
  | addi   (rd rs1 : Reg) (imm : Word)
  | slti   (rd rs1 : Reg) (imm : Word)
  | sltiu  (rd rs1 : Reg) (imm : Word)
  | xori   (rd rs1 : Reg) (imm : Word)
  | ori    (rd rs1 : Reg) (imm : Word)
  | andi   (rd rs1 : Reg) (imm : Word)
  | slli   (rd rs1 : Reg) (shamt : BitVec 5)
  | srli   (rd rs1 : Reg) (shamt : BitVec 5)
  | srai   (rd rs1 : Reg) (shamt : BitVec 5)
  | lb     (rd rs1 : Reg) (imm : Word)
  | lh     (rd rs1 : Reg) (imm : Word)
  | lw     (rd rs1 : Reg) (imm : Word)
  | lbu    (rd rs1 : Reg) (imm : Word)
  | lhu    (rd rs1 : Reg) (imm : Word)
  | sb     (rs1 rs2 : Reg) (imm : Word)
  | sh     (rs1 rs2 : Reg) (imm : Word)
  | sw     (rs1 rs2 : Reg) (imm : Word)
  | beq    (rs1 rs2 : Reg) (imm : Word)
  | bne    (rs1 rs2 : Reg) (imm : Word)
  | blt    (rs1 rs2 : Reg) (imm : Word)
  | bge    (rs1 rs2 : Reg) (imm : Word)
  | bltu   (rs1 rs2 : Reg) (imm : Word)
  | bgeu   (rs1 rs2 : Reg) (imm : Word)
  | lui    (rd : Reg) (imm : Word)
  | auipc  (rd : Reg) (imm : Word)
  | jal    (rd : Reg) (imm : Word)
  | jalr   (rd rs1 : Reg) (imm : Word)
  | ecall
  | ebreak
deriving DecidableEq, Repr

end Sys2Proof
end

