-- ==== Sys2Proof/Decode.lean ====
section
/-! DEFINITION. The instruction decoder as a pure total function (40_decoder_and_cycle.md R90 to R94), in the
spec's two stages, and after it the encoder, written from the same tables (30_encoding.md R61 to R79). -/

namespace Sys2Proof

/-! ## Fields and immediates (30_encoding.md R61, R63 to R67) -/

def opcodeOf (w : Word) : BitVec 7 := field w 0 7
def rdOf (w : Word) : Reg := (field w 7 5).toFin
def func3Of (w : Word) : BitVec 3 := field w 12 3
def rs1Of (w : Word) : Reg := (field w 15 5).toFin
def rs2Of (w : Word) : Reg := (field w 20 5).toFin
def func7Of (w : Word) : BitVec 7 := field w 25 7

/-- sext_12(w[31:20]) (R63). -/
def immI (w : Word) : Word := (field w 20 12).signExtend 32

/-- sext_12(w[31:25] << 5 | w[11:7]) (R64). -/
def immS (w : Word) : Word := (field w 25 7 ++ field w 7 5).signExtend 32

/-- sext_13(w[31] << 12 | w[7] << 11 | w[30:25] << 5 | w[11:8] << 1) (R65). -/
def immB (w : Word) : Word :=
  (field w 31 1 ++ field w 7 1 ++ field w 25 6 ++ field w 8 4 ++ 0#1).signExtend 32

/-- w[31:12] << 12 (R66). -/
def immU (w : Word) : Word := field w 12 20 ++ 0#12

/-- sext_21(w[31] << 20 | w[19:12] << 12 | w[20] << 11 | w[30:21] << 1) (R67). -/
def immJ (w : Word) : Word :=
  (field w 31 1 ++ field w 12 8 ++ field w 20 1 ++ field w 21 10 ++ 0#1).signExtend 32

/-! ## Stage one: the opcode selects the variant (40_decoder_and_cycle.md R92, 30_encoding.md R69, R70) -/

def decodeFields (w : Word) : DecodedInstruction :=
  match opcodeOf w with
  | 0b0110011#7 => .r (rdOf w) (rs1Of w) (rs2Of w) (func3Of w) (func7Of w)
  | 0b0010011#7 => .iArith (rdOf w) (rs1Of w) (func3Of w) (func7Of w) (immI w)
  | 0b0000011#7 => .iLoad (rdOf w) (rs1Of w) (func3Of w) (immI w)
  | 0b1100111#7 => .iJalr (rdOf w) (rs1Of w) (func3Of w) (immI w)
  | 0b1110011#7 => .iSystem (rdOf w) (rs1Of w) (func3Of w) (immI w)
  | 0b0100011#7 => .s (rs1Of w) (rs2Of w) (func3Of w) (immS w)
  | 0b1100011#7 => .b (rs1Of w) (rs2Of w) (func3Of w) (immB w)
  | 0b0110111#7 => .uLui (rdOf w) (immU w)
  | 0b0010111#7 => .uAuipc (rdOf w) (immU w)
  | 0b1101111#7 => .j (rdOf w) (immJ w)
  | _ => .unknown w

/-! ## Stage two: dispatch (40_decoder_and_cycle.md R94). Every func3 and func7 value is PRESUMED: the
spec itself marks them as general knowledge of RISC-V (decision D1, log 9). -/

/-- The 18 rows of 30_encoding.md R72. -/
def selectR (rd rs1 rs2 : Reg) (func3 : BitVec 3) (func7 : BitVec 7) : Except Illegal Instr :=
  match func7, func3 with
  | 0b0000000#7, 0b000#3 => .ok (.add rd rs1 rs2)
  | 0b0100000#7, 0b000#3 => .ok (.sub rd rs1 rs2)
  | 0b0000000#7, 0b001#3 => .ok (.sll rd rs1 rs2)
  | 0b0000000#7, 0b010#3 => .ok (.slt rd rs1 rs2)
  | 0b0000000#7, 0b011#3 => .ok (.sltu rd rs1 rs2)
  | 0b0000000#7, 0b100#3 => .ok (.xor rd rs1 rs2)
  | 0b0000000#7, 0b101#3 => .ok (.srl rd rs1 rs2)
  | 0b0100000#7, 0b101#3 => .ok (.sra rd rs1 rs2)
  | 0b0000000#7, 0b110#3 => .ok (.or rd rs1 rs2)
  | 0b0000000#7, 0b111#3 => .ok (.and rd rs1 rs2)
  | 0b0000001#7, 0b000#3 => .ok (.mul rd rs1 rs2)
  | 0b0000001#7, 0b001#3 => .ok (.mulh rd rs1 rs2)
  | 0b0000001#7, 0b010#3 => .ok (.mulhsu rd rs1 rs2)
  | 0b0000001#7, 0b011#3 => .ok (.mulhu rd rs1 rs2)
  | 0b0000001#7, 0b100#3 => .ok (.div rd rs1 rs2)
  | 0b0000001#7, 0b101#3 => .ok (.divu rd rs1 rs2)
  | 0b0000001#7, 0b110#3 => .ok (.rem rd rs1 rs2)
  | 0b0000001#7, 0b111#3 => .ok (.remu rd rs1 rs2)
  | _, _ => .error .opFunc

/-- The nine rows of 30_encoding.md R73; the shift amount is imm[4:0]. -/
def selectIArith (rd rs1 : Reg) (func3 : BitVec 3) (func7 : BitVec 7) (imm : Word) :
    Except Illegal Instr :=
  match func3 with
  | 0b000#3 => .ok (.addi rd rs1 imm)
  | 0b010#3 => .ok (.slti rd rs1 imm)
  | 0b011#3 => .ok (.sltiu rd rs1 imm)
  | 0b100#3 => .ok (.xori rd rs1 imm)
  | 0b110#3 => .ok (.ori rd rs1 imm)
  | 0b111#3 => .ok (.andi rd rs1 imm)
  | 0b001#3 => if func7 = 0b0000000#7 then .ok (.slli rd rs1 (imm.setWidth 5)) else .error .shiftFunc7
  | _ =>
    if func7 = 0b0000000#7 then .ok (.srli rd rs1 (imm.setWidth 5))
    else if func7 = 0b0100000#7 then .ok (.srai rd rs1 (imm.setWidth 5))
    else .error .shiftFunc7

/-- The five rows of 30_encoding.md R74. -/
def selectILoad (rd rs1 : Reg) (func3 : BitVec 3) (imm : Word) : Except Illegal Instr :=
  match func3 with
  | 0b000#3 => .ok (.lb rd rs1 imm)
  | 0b001#3 => .ok (.lh rd rs1 imm)
  | 0b010#3 => .ok (.lw rd rs1 imm)
  | 0b100#3 => .ok (.lbu rd rs1 imm)
  | 0b101#3 => .ok (.lhu rd rs1 imm)
  | _ => .error .loadWidth

/-- The three rows of 30_encoding.md R75. -/
def selectS (rs1 rs2 : Reg) (func3 : BitVec 3) (imm : Word) : Except Illegal Instr :=
  match func3 with
  | 0b000#3 => .ok (.sb rs1 rs2 imm)
  | 0b001#3 => .ok (.sh rs1 rs2 imm)
  | 0b010#3 => .ok (.sw rs1 rs2 imm)
  | _ => .error .storeWidth

/-- The six rows of 30_encoding.md R76. -/
def selectB (rs1 rs2 : Reg) (func3 : BitVec 3) (imm : Word) : Except Illegal Instr :=
  match func3 with
  | 0b000#3 => .ok (.beq rs1 rs2 imm)
  | 0b001#3 => .ok (.bne rs1 rs2 imm)
  | 0b100#3 => .ok (.blt rs1 rs2 imm)
  | 0b101#3 => .ok (.bge rs1 rs2 imm)
  | 0b110#3 => .ok (.bltu rs1 rs2 imm)
  | 0b111#3 => .ok (.bgeu rs1 rs2 imm)
  | _ => .error .branchCond

/-- The two rows of 30_encoding.md R78: func3, rd and rs1 zero, the immediate 0 or 1. -/
def selectISystem (rd rs1 : Reg) (func3 : BitVec 3) (imm : Word) : Except Illegal Instr :=
  if func3 = 0b000#3 ∧ rd = 0 ∧ rs1 = 0 then
    if imm = 0 then .ok .ecall else if imm = 1 then .ok .ebreak else .error .systemWord
  else .error .systemWord

/-- `select(d)` (40_decoder_and_cycle.md R94). -/
def select : DecodedInstruction → Except Illegal Instr
  | .r rd rs1 rs2 func3 func7 => selectR rd rs1 rs2 func3 func7
  | .iArith rd rs1 func3 func7 imm => selectIArith rd rs1 func3 func7 imm
  | .iLoad rd rs1 func3 imm => selectILoad rd rs1 func3 imm
  | .iJalr rd rs1 func3 imm => if func3 = 0b000#3 then .ok (.jalr rd rs1 imm) else .error .jalrFunc3
  | .iSystem rd rs1 func3 imm => selectISystem rd rs1 func3 imm
  | .s rs1 rs2 func3 imm => selectS rs1 rs2 func3 imm
  | .b rs1 rs2 func3 imm => selectB rs1 rs2 func3 imm
  | .uLui rd imm => .ok (.lui rd imm)
  | .uAuipc rd imm => .ok (.auipc rd imm)
  | .j rd imm => .ok (.jal rd imm)
  | .unknown _ => .error .unknownOpcode

/-- The instruction a word is, or the case of 30_encoding.md R80 by which it is illegal. -/
def decode (w : Word) : Except Illegal Instr := select (decodeFields w)

/-- The decoder on bytes as Memory holds them: the word at the front, least significant byte first
(20_memory.md R45), and the bytes after it. Total on every byte list. -/
def decodeBytes : List Byte → Except Illegal (Instr × List Byte)
  | b0 :: b1 :: b2 :: b3 :: rest =>
    match decode (wordOfBytes [b0, b1, b2, b3]) with
    | .ok i => .ok (i, rest)
    | .error e => .error e
  | _ => .error .truncated

/-- The instruction the decoder reads from the table word w of nbits bits, laid out as Memory stores it. -/
def decodeTableWord (nbits w : Nat) : Option Instr :=
  match decodeBytes (bytesOfWord 4 (BitVec.ofNat 32 (w % 2 ^ nbits))) with
  | .ok (i, _) => some i
  | .error _ => none

/-! ## The encoder (30_encoding.md R62: the six layouts; R72 to R79: the fixed fields) -/

/-- A register index as its 5-bit field. -/
def regBits (r : Reg) : BitVec 5 := BitVec.ofFin r

def encodeR (func7 : BitVec 7) (func3 : BitVec 3) (rd rs1 rs2 : Reg) : Word :=
  func7 ++ regBits rs2 ++ regBits rs1 ++ func3 ++ regBits rd ++ 0b0110011#7

def encodeI (opcode : BitVec 7) (func3 : BitVec 3) (rd rs1 : Reg) (imm : Word) : Word :=
  field imm 0 12 ++ regBits rs1 ++ func3 ++ regBits rd ++ opcode

def encodeShift (func7 : BitVec 7) (func3 : BitVec 3) (rd rs1 : Reg) (shamt : BitVec 5) : Word :=
  func7 ++ shamt ++ regBits rs1 ++ func3 ++ regBits rd ++ 0b0010011#7

def encodeS (func3 : BitVec 3) (rs1 rs2 : Reg) (imm : Word) : Word :=
  field imm 5 7 ++ regBits rs2 ++ regBits rs1 ++ func3 ++ field imm 0 5 ++ 0b0100011#7

def encodeB (func3 : BitVec 3) (rs1 rs2 : Reg) (imm : Word) : Word :=
  field imm 12 1 ++ field imm 5 6 ++ regBits rs2 ++ regBits rs1 ++ func3 ++ field imm 1 4
    ++ field imm 11 1 ++ 0b1100011#7

def encodeU (opcode : BitVec 7) (rd : Reg) (imm : Word) : Word :=
  field imm 12 20 ++ regBits rd ++ opcode

def encodeJ (rd : Reg) (imm : Word) : Word :=
  field imm 20 1 ++ field imm 1 10 ++ field imm 11 1 ++ field imm 12 8 ++ regBits rd
    ++ 0b1101111#7

/-- The word of an instruction; of an ill-formed term, the word of the bits its format has room for (log 14). -/
def encode : Instr → Word
  | .add rd rs1 rs2 => encodeR 0b0000000 0b000 rd rs1 rs2
  | .sub rd rs1 rs2 => encodeR 0b0100000 0b000 rd rs1 rs2
  | .sll rd rs1 rs2 => encodeR 0b0000000 0b001 rd rs1 rs2
  | .slt rd rs1 rs2 => encodeR 0b0000000 0b010 rd rs1 rs2
  | .sltu rd rs1 rs2 => encodeR 0b0000000 0b011 rd rs1 rs2
  | .xor rd rs1 rs2 => encodeR 0b0000000 0b100 rd rs1 rs2
  | .srl rd rs1 rs2 => encodeR 0b0000000 0b101 rd rs1 rs2
  | .sra rd rs1 rs2 => encodeR 0b0100000 0b101 rd rs1 rs2
  | .or rd rs1 rs2 => encodeR 0b0000000 0b110 rd rs1 rs2
  | .and rd rs1 rs2 => encodeR 0b0000000 0b111 rd rs1 rs2
  | .mul rd rs1 rs2 => encodeR 0b0000001 0b000 rd rs1 rs2
  | .mulh rd rs1 rs2 => encodeR 0b0000001 0b001 rd rs1 rs2
  | .mulhsu rd rs1 rs2 => encodeR 0b0000001 0b010 rd rs1 rs2
  | .mulhu rd rs1 rs2 => encodeR 0b0000001 0b011 rd rs1 rs2
  | .div rd rs1 rs2 => encodeR 0b0000001 0b100 rd rs1 rs2
  | .divu rd rs1 rs2 => encodeR 0b0000001 0b101 rd rs1 rs2
  | .rem rd rs1 rs2 => encodeR 0b0000001 0b110 rd rs1 rs2
  | .remu rd rs1 rs2 => encodeR 0b0000001 0b111 rd rs1 rs2
  | .addi rd rs1 imm => encodeI 0b0010011 0b000 rd rs1 imm
  | .slti rd rs1 imm => encodeI 0b0010011 0b010 rd rs1 imm
  | .sltiu rd rs1 imm => encodeI 0b0010011 0b011 rd rs1 imm
  | .xori rd rs1 imm => encodeI 0b0010011 0b100 rd rs1 imm
  | .ori rd rs1 imm => encodeI 0b0010011 0b110 rd rs1 imm
  | .andi rd rs1 imm => encodeI 0b0010011 0b111 rd rs1 imm
  | .slli rd rs1 shamt => encodeShift 0b0000000 0b001 rd rs1 shamt
  | .srli rd rs1 shamt => encodeShift 0b0000000 0b101 rd rs1 shamt
  | .srai rd rs1 shamt => encodeShift 0b0100000 0b101 rd rs1 shamt
  | .lb rd rs1 imm => encodeI 0b0000011 0b000 rd rs1 imm
  | .lh rd rs1 imm => encodeI 0b0000011 0b001 rd rs1 imm
  | .lw rd rs1 imm => encodeI 0b0000011 0b010 rd rs1 imm
  | .lbu rd rs1 imm => encodeI 0b0000011 0b100 rd rs1 imm
  | .lhu rd rs1 imm => encodeI 0b0000011 0b101 rd rs1 imm
  | .sb rs1 rs2 imm => encodeS 0b000 rs1 rs2 imm
  | .sh rs1 rs2 imm => encodeS 0b001 rs1 rs2 imm
  | .sw rs1 rs2 imm => encodeS 0b010 rs1 rs2 imm
  | .beq rs1 rs2 imm => encodeB 0b000 rs1 rs2 imm
  | .bne rs1 rs2 imm => encodeB 0b001 rs1 rs2 imm
  | .blt rs1 rs2 imm => encodeB 0b100 rs1 rs2 imm
  | .bge rs1 rs2 imm => encodeB 0b101 rs1 rs2 imm
  | .bltu rs1 rs2 imm => encodeB 0b110 rs1 rs2 imm
  | .bgeu rs1 rs2 imm => encodeB 0b111 rs1 rs2 imm
  | .lui rd imm => encodeU 0b0110111 rd imm
  | .auipc rd imm => encodeU 0b0010111 rd imm
  | .jal rd imm => encodeJ rd imm
  | .jalr rd rs1 imm => encodeI 0b1100111 0b000 rd rs1 imm
  | .ecall => 0x00000073#32
  | .ebreak => 0x00100073#32

/-! ## The opcode table's mask and match of each row (spec/opcode_table.json; 30_encoding.md R72 to R79) -/

/-- The bits of a row that are fixed. -/
def Instr.tableMask : Instr → Word
  | .add _ _ _ | .sub _ _ _ | .sll _ _ _ | .slt _ _ _ | .sltu _ _ _ | .xor _ _ _ | .srl _ _ _
  | .sra _ _ _ | .or _ _ _ | .and _ _ _ | .mul _ _ _ | .mulh _ _ _ | .mulhsu _ _ _
  | .mulhu _ _ _ | .div _ _ _ | .divu _ _ _ | .rem _ _ _ | .remu _ _ _ | .slli _ _ _
  | .srli _ _ _ | .srai _ _ _ => 0xFE00707F#32
  | .addi _ _ _ | .slti _ _ _ | .sltiu _ _ _ | .xori _ _ _ | .ori _ _ _ | .andi _ _ _
  | .lb _ _ _ | .lh _ _ _ | .lw _ _ _ | .lbu _ _ _ | .lhu _ _ _ | .sb _ _ _ | .sh _ _ _
  | .sw _ _ _ | .beq _ _ _ | .bne _ _ _ | .blt _ _ _ | .bge _ _ _ | .bltu _ _ _ | .bgeu _ _ _
  | .jalr _ _ _ => 0x0000707F#32
  | .lui _ _ | .auipc _ _ | .jal _ _ => 0x0000007F#32
  | .ecall | .ebreak => 0xFFFFFFFF#32

/-- The values of those bits. -/
def Instr.tableMatch : Instr → Word
  | .add _ _ _ => 0x00000033#32
  | .sub _ _ _ => 0x40000033#32
  | .sll _ _ _ => 0x00001033#32
  | .slt _ _ _ => 0x00002033#32
  | .sltu _ _ _ => 0x00003033#32
  | .xor _ _ _ => 0x00004033#32
  | .srl _ _ _ => 0x00005033#32
  | .sra _ _ _ => 0x40005033#32
  | .or _ _ _ => 0x00006033#32
  | .and _ _ _ => 0x00007033#32
  | .mul _ _ _ => 0x02000033#32
  | .mulh _ _ _ => 0x02001033#32
  | .mulhsu _ _ _ => 0x02002033#32
  | .mulhu _ _ _ => 0x02003033#32
  | .div _ _ _ => 0x02004033#32
  | .divu _ _ _ => 0x02005033#32
  | .rem _ _ _ => 0x02006033#32
  | .remu _ _ _ => 0x02007033#32
  | .addi _ _ _ => 0x00000013#32
  | .slti _ _ _ => 0x00002013#32
  | .sltiu _ _ _ => 0x00003013#32
  | .xori _ _ _ => 0x00004013#32
  | .ori _ _ _ => 0x00006013#32
  | .andi _ _ _ => 0x00007013#32
  | .slli _ _ _ => 0x00001013#32
  | .srli _ _ _ => 0x00005013#32
  | .srai _ _ _ => 0x40005013#32
  | .lb _ _ _ => 0x00000003#32
  | .lh _ _ _ => 0x00001003#32
  | .lw _ _ _ => 0x00002003#32
  | .lbu _ _ _ => 0x00004003#32
  | .lhu _ _ _ => 0x00005003#32
  | .sb _ _ _ => 0x00000023#32
  | .sh _ _ _ => 0x00001023#32
  | .sw _ _ _ => 0x00002023#32
  | .beq _ _ _ => 0x00000063#32
  | .bne _ _ _ => 0x00001063#32
  | .blt _ _ _ => 0x00004063#32
  | .bge _ _ _ => 0x00005063#32
  | .bltu _ _ _ => 0x00006063#32
  | .bgeu _ _ _ => 0x00007063#32
  | .lui _ _ => 0x00000037#32
  | .auipc _ _ => 0x00000017#32
  | .jal _ _ => 0x0000006F#32
  | .jalr _ _ _ => 0x00000067#32
  | .ecall => 0x00000073#32
  | .ebreak => 0x00100073#32

end Sys2Proof
end

