-- ==== Sys2Proof/Config.lean ====
section
/-! DEFINITION. The parameters the spec gives the hardware (00_scope.md R5). A `Config` is plain data
that State carries and no step changes, so that a statement about every state is a statement about
every RESET_PC and every MEM_SIZE (log 1). The third parameter, MEM_INIT, is the contents of State's memory
before the first step (log 3). -/

namespace Sys2Proof

/-- RESET_PC and MEM_SIZE (00_scope.md R5). MEM_SIZE is held as the address of Memory's last byte, so that
the constraint 1 <= MEM_SIZE <= 2^32 holds of every `Config` there is: a MEM_SIZE outside it cannot be
written down, which is the refusal 93_implementation_defined.md Part 1 asks for (DESIGN CHOICE, safe, log 1). -/
structure Config where
  /-- RESET_PC, any 32-bit value (70_reset_and_hazards.md R251) -/
  resetPc : Word
  /-- MEM_SIZE - 1 -/
  memLast : Word
deriving DecidableEq, Repr

/-- MEM_SIZE, the number of bytes of Memory (20_memory.md R41). -/
def Config.memSize (c : Config) : Nat := c.memLast.toNat + 1

/-- The parameters as a loader gives them; a MEM_SIZE of 0 or above 2^32 is refused
(00_scope.md R5; 93_implementation_defined.md Part 1). -/
def Config.ofMemSize (resetPc : Word) (memSize : Nat) : Option Config :=
  if 1 ≤ memSize ∧ memSize ≤ 2 ^ 32 then some ⟨resetPc, BitVec.ofNat 32 (memSize - 1)⟩ else none

/-- The parameters of `State.reset`: RESET_PC = 0, the spec's default (10_state.md R38), and MEM_SIZE =
2^32, the whole address space (DESIGN CHOICE, unsafe for statements about `State.reset` alone: the spec gives
MEM_SIZE no default, log 2). -/
def Config.default : Config := ⟨0#32, 0xFFFFFFFF#32⟩

end Sys2Proof
end

