-- ==== Sys2Proof/Machine/State.lean ====
section
/-! DEFINITION. Everything the spec gives the machine to remember, as plain data (10_state.md), the reasons a
step stops (60_exceptions.md R220), and the state after reset (10_state.md R38). -/

namespace Sys2Proof.Machine

/-- What a memory access was made for (60_exceptions.md R222). -/
inductive AccessKind where
  | fetch | load | store | syscall
deriving DecidableEq, Repr

/-- The cause of a fault with what it records (60_exceptions.md R220 to R222). -/
inductive Cause where
  /-- the word w at address pc is none of the 47 instructions -/
  | illegalInstruction (pc w : Word)
  /-- the instruction at pc made an access of n bytes at addr that is not in range -/
  | illegalMemoryAccess (pc addr : Word) (n : Nat) (kind : AccessKind)
deriving DecidableEq, Repr

/-- The run status (10_state.md R32): only a Running core executes; the other three are final. -/
inductive Status where
  | running
  | exited (code : Word)
  | halted
  | faulted (cause : Cause)
deriving DecidableEq, Repr

/-- One event of the print trace: the stream and the bytes handed to the host (10_state.md R34). -/
structure PrintEvent where
  stream : Word
  bytes : List Byte
deriving DecidableEq, Repr

/-- Memory as (address, byte) pairs in one canonical form (`Memory.wf`); an address with no pair reads as
`memUnlisted`. -/
abbrev Memory := List Host.Cell

/-- The state of the core and of what it is connected to (10_state.md R20 to R34; INVENTORY.md, State). -/
structure State where
  /-- x[0] to x[31] (R20); slot 0 is read and written only through `State.x` and `State.setX` (R21) -/
  regs : Vector Word 32
  /-- the address of the instruction being executed (R25) -/
  pc : Word
  /-- Memory, for code and data (R31) -/
  mem : Memory
  /-- the run status (R32) -/
  status : Status
  /-- the print trace, oldest event first (R34) -/
  trace : List PrintEvent
  /-- RESET_PC and MEM_SIZE (00_scope.md R5); no step changes it -/
  config : Config
deriving DecidableEq, Repr

/-- Why a step has no next state. -/
inductive Fault where
  /-- Raised by `raise`, which the fetch, the dispatch of an illegal word, the five loads, the three stores and
  the print call use: the core took the fault `cause` and `final` is its state after the fault entry, status
  Faulted, everything else as before the step (60_exceptions.md R226, R241). The spec's own stop: safe. -/
  | raised (cause : Cause) (final : State)
  /-- Raised by `step` when the status is not Running: no step exists (10_state.md R32;
  93_implementation_defined.md Part 1, stuck). Safe. -/
  | notRunning (status : Status)
deriving DecidableEq, Repr

/-- Why an instruction has no meaning. -/
inductive Refusal where
  /-- Raised by no arm of `exec` in this model: every instruction has its meaning. Safe. -/
  | notModelled (mnemonic : String)
deriving DecidableEq, Repr

/-- What a step or a meaning answers. -/
abbrev Result := Host.Outcome State Fault Refusal

/-- The machine right after reset (10_state.md R38): every register 0, pc = RESET_PC = 0, Running, the trace
empty. Memory lists nothing and MEM_SIZE is 2^32 (DESIGN CHOICE, log 2 and 3: the spec leaves both open). -/
def State.reset : State where
  regs := Vector.replicate 32 0#32
  pc := 0#32
  mem := []
  status := .running
  trace := []
  config := Config.default

end Sys2Proof.Machine
end

