-- ==== Sys2Proof/Machine/Ops.lean ====
section
/-! DEFINITION. The named operations over memory, registers, the pc, the print trace and the run status that
every instruction is written with; taking a fault is one of them. -/

namespace Sys2Proof.Machine

/-! ## Memory (20_memory.md) -/

/-- What an address with no pair reads as (DESIGN CHOICE, unsafe for statements about `State.reset` alone: the
spec leaves MEM_INIT open; every MEM_INIT is some `Memory`, log 3). -/
def memUnlisted : Byte := 0#8

/-- Pairs at strictly rising addresses from lo on, none holding what an unlisted address reads as. -/
def Memory.wfFrom : Nat → Memory → Bool
  | _, [] => true
  | lo, (k, b) :: m => decide (lo ≤ k) && decide (b ≠ memUnlisted) && Memory.wfFrom (k + 1) m

/-- The canonical form: equal memories are equal lists. -/
def Memory.wf (m : Memory) : Bool := Memory.wfFrom 0 m

/-- The byte at an address. -/
def Memory.byte : Memory → Nat → Byte
  | [], _ => memUnlisted
  | (k, b) :: m, a => if k = a then b else Memory.byte m a

/-- Memory with the byte at one address replaced, in canonical form. -/
def Memory.setByte : Memory → Nat → Byte → Memory
  | [], a, v => if v = memUnlisted then [] else [(a, v)]
  | (k, b) :: m, a, v =>
    if a < k then (if v = memUnlisted then (k, b) :: m else (a, v) :: (k, b) :: m)
    else if a = k then (if v = memUnlisted then m else (a, v) :: m)
    else (k, b) :: Memory.setByte m a v

/-- The n bytes at a, a+1, ..., in that order. -/
def Memory.bytes (m : Memory) (a : Nat) : Nat → List Byte
  | 0 => []
  | n + 1 => m.byte a :: Memory.bytes m (a + 1) n

/-- Memory with the bytes at a, a+1, ... replaced. -/
def Memory.setBytes (m : Memory) (a : Nat) : List Byte → Memory
  | [] => m
  | b :: bs => Memory.setBytes (m.setByte a b) (a + 1) bs

/-- An access of n bytes at addr is in range: u(addr) + n <= MEM_SIZE over the integers (20_memory.md R42). -/
def State.inRange (s : State) (addr : Word) (n : Nat) : Bool :=
  decide (addr.toNat + n ≤ s.config.memSize)

/-- `MemRead(addr, n)`, n in 1, 2, 4: the little-endian value in the low 8n bits, none when the access is not
in range (20_memory.md R43). -/
def memRead (s : State) (addr : Word) (n : Nat) : Option Word :=
  if s.inRange addr n then some (wordOfBytes (s.mem.bytes addr.toNat n)) else none

/-- `MemWrite(addr, n, v)`, n in 1, 2, 4: the low n bytes of v at addr, addr+1, ..., none, with nothing
written, when the access is not in range (20_memory.md R44, R59). -/
def memWrite (s : State) (addr : Word) (n : Nat) (v : Word) : Option State :=
  if s.inRange addr n then some { s with mem := s.mem.setBytes addr.toNat (bytesOfWord n v) }
  else none

/-! ## Registers (10_state.md R20 to R23) -/

/-- `x[r]`: register 0 reads as zero (R21). -/
def State.x (s : State) (r : Reg) : Word := if r = 0 then 0#32 else s.regs[r]

/-- `x[r] <- v`: a write to register 0 is discarded (R21). -/
def State.setX (s : State) (r : Reg) (v : Word) : State :=
  if r = 0 then s else { s with regs := s.regs.set r v }

/-! ## The end of an instruction cycle (40_decoder_and_cycle.md R95 steps 5 and 6, R97) -/

/-- What an instruction rule yields for the pc (40_decoder_and_cycle.md R97). -/
inductive NextPc where
  | sequential
  | explicit (t : Word)
deriving DecidableEq, Repr

/-- The next pc; the default advance wraps modulo 2^32 (R97, decision D6). -/
def NextPc.target (pc : Word) : NextPc → Word
  | .sequential => pc + 4#32
  | .explicit t => t

/-- AdvancePC (R95 step 6). -/
def State.advance (s : State) (next : NextPc) : State := { s with pc := next.target s.pc }

/-- Writeback, then AdvancePC (R95 steps 5 and 6). -/
def State.retire (s : State) (rd : Reg) (v : Word) (next : NextPc) : State :=
  (s.setX rd v).advance next

/-! ## Faults (60_exceptions.md R226) -/

/-- Fault entry: the status becomes Faulted(cause); no register, no byte and no event is written, and the pc
keeps the address of the faulting instruction (R226). Nothing else is saved: there is no handler and no return
(R227, R228). -/
def State.enterFault (s : State) (c : Cause) : State := { s with status := .faulted c }

/-- `raise`: the step ends with the fault and the state the fault entry leaves (R226, R241; log 4). -/
def raise (c : Cause) (s : State) : Result := .fault (.raised c (s.enterFault c))

/-! ## The host boundary (10_state.md R34, R36; 46_system.md R207) -/

/-- Appends one event to the print trace (46_system.md R208). -/
def State.print (s : State) (e : PrintEvent) : State := { s with trace := s.trace ++ [e] }

/-- The run ends with a status; nothing else changes and the pc stays (46_system.md R209, R210). -/
def State.stop (s : State) (st : Status) : State := { s with status := st }

/-! ## Reset and boot (70_reset_and_hazards.md R250 to R252), events outside the step (log 6 and 7) -/

/-- Reset of the core: every register 0, pc = RESET_PC, Running, the trace empty; Memory is not written. -/
def State.coreReset (s : State) : State :=
  { s with regs := Vector.replicate 32 0#32, pc := s.config.resetPc, status := .running, trace := [] }

/-- A core whose loader has set the parameters and written MEM_INIT, then reset it (R252). -/
def State.boot (config : Config) (memInit : Memory) : State where
  regs := Vector.replicate 32 0#32
  pc := config.resetPc
  mem := memInit
  status := .running
  trace := []
  config := config

end Sys2Proof.Machine
end

