-- ==== Sys2Proof/Machine/Flags.lean ====
section
/-! DEFINITION. The hardware has no flags (10_state.md R28): what takes their place is the comparison, whose
truth value is written to a register as 0 or 1 (41_alu.md R113) or decides a branch (44_branch_jump.md R180). -/

namespace Sys2Proof.Machine

/-- The conditions of the ALU's COMPARE (eq, lt, gt, le, ge: 41_alu.md R113) and of BRANCH (eq, ne, lt, ge:
44_branch_jump.md R180). The ALU's eq, gt, le and ge are reached by no instruction. -/
inductive Cond where
  | eq | ne | lt | gt | le | ge
deriving DecidableEq, Repr

/-- `a <s b` when signed, `a <u b` when not (00_scope.md R9). -/
def lessThan (signed : Bool) (a b : Word) : Bool :=
  if signed then decide (a.toInt < b.toInt) else decide (a.toNat < b.toNat)

/-- COMPARE(a, b, cond, signed), a the left operand. -/
def compare (c : Cond) (signed : Bool) (a b : Word) : Bool :=
  match c with
  | .eq => decide (a = b)
  | .ne => decide (a ≠ b)
  | .lt => lessThan signed a b
  | .gt => lessThan signed b a
  | .le => !lessThan signed b a
  | .ge => !lessThan signed a b

/-- `bool(c)`: the 32-bit vector 1 or 0 (00_scope.md R9). -/
def boolWord (c : Bool) : Word := if c then 1#32 else 0#32

end Sys2Proof.Machine
end

