-- ==== Sys2Proof/Machine/Operands.lean ====
section
/-! DEFINITION. Every operand form the spec gives: the second ALU operand, the effective address, the three
kinds of transfer target, the value a narrow load delivers. All source registers are read in the state before
the instruction (10_state.md R23). -/

namespace Sys2Proof.Machine

/-- The second operand of an ALU operation: x[rs2] for the R variant, the 32-bit immediate for I-arith
(41_alu.md, template). -/
inductive Operand where
  | reg (r : Reg)
  | imm (v : Word)
deriving DecidableEq, Repr

/-- The value of an operand in a state. -/
def Operand.value (s : State) : Operand → Word
  | .reg r => s.x r
  | .imm v => v

/-- A shift-immediate's amount: w[24:20], zero above; the unit uses the low five bits (41_alu.md R112). -/
def shamtOperand (shamt : BitVec 5) : Operand := .imm (shamt.setWidth 32)

/-- The one addressing mode: (x[rs1] + imm) mod 2^32 (43_load_store.md R160). -/
def effAddr (s : State) (rs1 : Reg) (imm : Word) : Word := s.x rs1 + imm

/-- The target of a branch and of JAL, relative to the instruction itself (44_branch_jump.md R180, R187). -/
def relTarget (s : State) (imm : Word) : Word := s.pc + imm

/-- The target of JALR, bit 0 cleared (44_branch_jump.md R188). -/
def jalrTarget (s : State) (rs1 : Reg) (imm : Word) : Word := (s.x rs1 + imm) &&& 0xFFFFFFFE#32

/-- The return address JAL and JALR write: (pc + 4) mod 2^32 (44_branch_jump.md R190). -/
def linkValue (s : State) : Word := s.pc + 4#32

/-- What a load of n bytes delivers: sext_(8n) or zext_(8n) of the value, the value itself when n = 4
(43_load_store.md R161). -/
def loadValue (n : Nat) (signed : Bool) (v : Word) : Word :=
  if signed then sext (8 * n) v else zext (8 * n) v

end Sys2Proof.Machine
end

