-- ==== Sys2Proof/Machine/Alu.lean ====
section
/-! DEFINITION. The ALU (41_alu.md): its four operations (R110 to R113) and the 19 instructions over them. -/

namespace Sys2Proof.Machine

/-! ## The four operations -/

/-- ADD: modulo 2^32 (41_alu.md R110). -/
def aluAdd (a b : Word) : Word := a + b

/-- SUB: ADD with the second operand negated, u(a) + u(~b) + 1 modulo 2^32 (41_alu.md R110). -/
def aluSub (a b : Word) : Word := aluAdd (aluAdd a (~~~b)) 1#32

/-- AND, OR, XOR, bit by bit (41_alu.md R111). -/
def aluAnd (a b : Word) : Word := a &&& b
def aluOr (a b : Word) : Word := a ||| b
def aluXor (a b : Word) : Word := a ^^^ b

/-- The direction of a shift (41_alu.md R112). -/
inductive Direction where
  | left | right
deriving DecidableEq, Repr

/-- SHIFT(value, amount, direction, signed): the amount is masked to five bits; left and unsigned right fill
with zeros, signed right copies the sign (41_alu.md R112). -/
def aluShift (dir : Direction) (signed : Bool) (value amount : Word) : Word :=
  let n := (amount &&& 31#32).toNat
  match dir with
  | .left => value <<< n
  | .right => if signed then value.sshiftRight n else value >>> n

/-- COMPARE with cond = lt, written as 1 or 0 (41_alu.md R113). -/
def aluLess (signed : Bool) (a b : Word) : Word := boolWord (compare .lt signed a b)

/-- An ALU instruction: both operands read, then x[rd] written, then pc + 4 (41_alu.md, template). -/
def aluOp (f : Word → Word → Word) (rd rs1 : Reg) (b : Operand) (s : State) : Result :=
  .next (s.retire rd (f (s.x rs1) (b.value s)) .sequential)

/-! ## R variant (41_alu.md R114 to R123) -/

def execAdd (rd rs1 rs2 : Reg) (s : State) : Result := aluOp aluAdd rd rs1 (.reg rs2) s
def execSub (rd rs1 rs2 : Reg) (s : State) : Result := aluOp aluSub rd rs1 (.reg rs2) s
def execSll (rd rs1 rs2 : Reg) (s : State) : Result :=
  aluOp (aluShift .left false) rd rs1 (.reg rs2) s
def execSlt (rd rs1 rs2 : Reg) (s : State) : Result := aluOp (aluLess true) rd rs1 (.reg rs2) s
def execSltu (rd rs1 rs2 : Reg) (s : State) : Result := aluOp (aluLess false) rd rs1 (.reg rs2) s
def execXor (rd rs1 rs2 : Reg) (s : State) : Result := aluOp aluXor rd rs1 (.reg rs2) s
def execSrl (rd rs1 rs2 : Reg) (s : State) : Result :=
  aluOp (aluShift .right false) rd rs1 (.reg rs2) s
def execSra (rd rs1 rs2 : Reg) (s : State) : Result :=
  aluOp (aluShift .right true) rd rs1 (.reg rs2) s
def execOr (rd rs1 rs2 : Reg) (s : State) : Result := aluOp aluOr rd rs1 (.reg rs2) s
def execAnd (rd rs1 rs2 : Reg) (s : State) : Result := aluOp aluAnd rd rs1 (.reg rs2) s

/-! ## I-arith variant (41_alu.md R124 to R132) -/

def execAddi (rd rs1 : Reg) (imm : Word) (s : State) : Result := aluOp aluAdd rd rs1 (.imm imm) s
def execSlti (rd rs1 : Reg) (imm : Word) (s : State) : Result :=
  aluOp (aluLess true) rd rs1 (.imm imm) s
def execSltiu (rd rs1 : Reg) (imm : Word) (s : State) : Result :=
  aluOp (aluLess false) rd rs1 (.imm imm) s
def execXori (rd rs1 : Reg) (imm : Word) (s : State) : Result := aluOp aluXor rd rs1 (.imm imm) s
def execOri (rd rs1 : Reg) (imm : Word) (s : State) : Result := aluOp aluOr rd rs1 (.imm imm) s
def execAndi (rd rs1 : Reg) (imm : Word) (s : State) : Result := aluOp aluAnd rd rs1 (.imm imm) s
def execSlli (rd rs1 : Reg) (shamt : BitVec 5) (s : State) : Result :=
  aluOp (aluShift .left false) rd rs1 (shamtOperand shamt) s
def execSrli (rd rs1 : Reg) (shamt : BitVec 5) (s : State) : Result :=
  aluOp (aluShift .right false) rd rs1 (shamtOperand shamt) s
def execSrai (rd rs1 : Reg) (shamt : BitVec 5) (s : State) : Result :=
  aluOp (aluShift .right true) rd rs1 (shamtOperand shamt) s

end Sys2Proof.Machine
end

