-- ==== Sys2Proof/Machine/Branch.lean ====
section
/-! DEFINITION. The branch/jump controller (44_branch_jump.md). Nothing is checked of a target here: a target
outside Memory faults at the next fetch (R189). -/

namespace Sys2Proof.Machine

/-- BRANCH(rs1, rs2, imm, cond, signed): rs1 is the left operand; no register and no byte is written
(44_branch_jump.md R180). -/
def branch (c : Cond) (signed : Bool) (rs1 rs2 : Reg) (imm : Word) (s : State) : Result :=
  .next (s.advance
    (if compare c signed (s.x rs1) (s.x rs2) then .explicit (relTarget s imm) else .sequential))

/-- A jump that writes the return address: the target is computed from the old registers, then x[rd] is
written (44_branch_jump.md R187, R188; 90_conflicts.md C9). -/
def jump (target : Word) (rd : Reg) (s : State) : Result :=
  .next (s.retire rd (linkValue s) (.explicit target))

def execBeq (rs1 rs2 : Reg) (imm : Word) (s : State) : Result := branch .eq false rs1 rs2 imm s
def execBne (rs1 rs2 : Reg) (imm : Word) (s : State) : Result := branch .ne false rs1 rs2 imm s
def execBlt (rs1 rs2 : Reg) (imm : Word) (s : State) : Result := branch .lt true rs1 rs2 imm s
def execBge (rs1 rs2 : Reg) (imm : Word) (s : State) : Result := branch .ge true rs1 rs2 imm s
def execBltu (rs1 rs2 : Reg) (imm : Word) (s : State) : Result := branch .lt false rs1 rs2 imm s
def execBgeu (rs1 rs2 : Reg) (imm : Word) (s : State) : Result := branch .ge false rs1 rs2 imm s

/-- JAL (R187). -/
def execJal (rd : Reg) (imm : Word) (s : State) : Result := jump (relTarget s imm) rd s

/-- JALR (R188). -/
def execJalr (rd rs1 : Reg) (imm : Word) (s : State) : Result := jump (jalrTarget s rs1 imm) rd s

end Sys2Proof.Machine
end

