-- ==== Sys2Proof/Machine/LargeImm.lean ====
section
/-! DEFINITION. The large-immediate unit (45_large_immediate.md); the immediate arrives already shifted. -/

namespace Sys2Proof.Machine

/-- LUI (R200). -/
def execLui (rd : Reg) (imm : Word) (s : State) : Result := .next (s.retire rd imm .sequential)

/-- AUIPC: pc is the address of the AUIPC itself; the sum wraps (R201). -/
def execAuipc (rd : Reg) (imm : Word) (s : State) : Result :=
  .next (s.retire rd (relTarget s imm) .sequential)

end Sys2Proof.Machine
end

