-- ==== Sys2Proof/Machine/LoadStore.lean ====
section
/-! DEFINITION. The load/store unit (43_load_store.md): the two common rules R161 and R167 and the eight
instructions. -/

namespace Sys2Proof.Machine

/-- LOAD(rd, rs1, imm, n, signed): the read takes place, and can fault, also when rd = 0; the address uses the
old x[rs1], also when rd = rs1 (43_load_store.md R161, R172). -/
def load (n : Nat) (signed : Bool) (rd rs1 : Reg) (imm : Word) (s : State) : Result :=
  match memRead s (effAddr s rs1 imm) n with
  | some v => .next (s.retire rd (loadValue n signed v) .sequential)
  | none => raise (.illegalMemoryAccess s.pc (effAddr s rs1 imm) n .load) s

/-- STORE(rs1, rs2, imm, n): no register is written; a store that faults writes no byte (43_load_store.md
R167, R172; 20_memory.md R59). -/
def store (n : Nat) (rs1 rs2 : Reg) (imm : Word) (s : State) : Result :=
  match memWrite s (effAddr s rs1 imm) n (s.x rs2) with
  | some s' => .next (s'.advance .sequential)
  | none => raise (.illegalMemoryAccess s.pc (effAddr s rs1 imm) n .store) s

def execLb (rd rs1 : Reg) (imm : Word) (s : State) : Result := load 1 true rd rs1 imm s
def execLh (rd rs1 : Reg) (imm : Word) (s : State) : Result := load 2 true rd rs1 imm s
def execLw (rd rs1 : Reg) (imm : Word) (s : State) : Result := load 4 true rd rs1 imm s
def execLbu (rd rs1 : Reg) (imm : Word) (s : State) : Result := load 1 false rd rs1 imm s
def execLhu (rd rs1 : Reg) (imm : Word) (s : State) : Result := load 2 false rd rs1 imm s

def execSb (rs1 rs2 : Reg) (imm : Word) (s : State) : Result := store 1 rs1 rs2 imm s
def execSh (rs1 rs2 : Reg) (imm : Word) (s : State) : Result := store 2 rs1 rs2 imm s
def execSw (rs1 rs2 : Reg) (imm : Word) (s : State) : Result := store 4 rs1 rs2 imm s

end Sys2Proof.Machine
end

