-- ==== Sys2Proof/Machine/MulDiv.lean ====
section
/-! DEFINITION. The multiply/divide unit (42_muldiv.md): exact integer products and truncating quotients,
narrowed at the end; no instruction of the unit faults (R149). -/

namespace Sys2Proof.Machine

/-- The product modulo 2^64 as a two's-complement vector (42_muldiv.md R140). -/
def product64 (p : Int) : BitVec 64 := BitVec.ofInt 64 p

/-- P64[31:0]. -/
def lowWord (p : Int) : Word := (product64 p).extractLsb' 0 32

/-- P64[63:32]. -/
def highWord (p : Int) : Word := (product64 p).extractLsb' 32 32

/-- MUL: the low word, the same under either reading (R141). -/
def mulLow (a b : Word) : Word := lowWord (a.toInt * b.toInt)

/-- MULH: signed x signed, high word (R142; 90_conflicts.md C2). -/
def mulHighSS (a b : Word) : Word := highWord (a.toInt * b.toInt)

/-- MULHSU: signed x[rs1] x unsigned x[rs2], high word (R143; the operand order is the spec's decision D19,
log 10). -/
def mulHighSU (a b : Word) : Word := highWord (a.toInt * (b.toNat : Int))

/-- MULHU: unsigned x unsigned, high word (R144). -/
def mulHighUU (a b : Word) : Word := highWord ((a.toNat : Int) * (b.toNat : Int))

/-- DIV (R145). -/
def divSigned (a b : Word) : Word :=
  if b = 0#32 then allOnes
  else if a = int32Min ∧ b = allOnes then int32Min
  else BitVec.ofInt 32 (a.toInt.tdiv b.toInt)

/-- DIVU (R146). -/
def divUnsigned (a b : Word) : Word :=
  if b = 0#32 then allOnes else BitVec.ofNat 32 (a.toNat / b.toNat)

/-- REM (R147). -/
def remSigned (a b : Word) : Word :=
  if b = 0#32 then a
  else if a = int32Min ∧ b = allOnes then 0#32
  else BitVec.ofInt 32 (a.toInt - b.toInt * a.toInt.tdiv b.toInt)

/-- REMU (R148). -/
def remUnsigned (a b : Word) : Word :=
  if b = 0#32 then a else BitVec.ofNat 32 (a.toNat % b.toNat)

def execMul (rd rs1 rs2 : Reg) (s : State) : Result := aluOp mulLow rd rs1 (.reg rs2) s
def execMulh (rd rs1 rs2 : Reg) (s : State) : Result := aluOp mulHighSS rd rs1 (.reg rs2) s
def execMulhsu (rd rs1 rs2 : Reg) (s : State) : Result := aluOp mulHighSU rd rs1 (.reg rs2) s
def execMulhu (rd rs1 rs2 : Reg) (s : State) : Result := aluOp mulHighUU rd rs1 (.reg rs2) s
def execDiv (rd rs1 rs2 : Reg) (s : State) : Result := aluOp divSigned rd rs1 (.reg rs2) s
def execDivu (rd rs1 rs2 : Reg) (s : State) : Result := aluOp divUnsigned rd rs1 (.reg rs2) s
def execRem (rd rs1 rs2 : Reg) (s : State) : Result := aluOp remSigned rd rs1 (.reg rs2) s
def execRemu (rd rs1 rs2 : Reg) (s : State) : Result := aluOp remUnsigned rd rs1 (.reg rs2) s

end Sys2Proof.Machine
end

