-- ==== Sys2Proof/Machine/System.lean ====
section
/-! DEFINITION. The system-call path (46_system.md): ECALL with its three calls, and EBREAK. No call writes a
register or a byte of Memory (R212). -/

namespace Sys2Proof.Machine

/-- a0, a1, a2 and a7, the registers with a role at ECALL (10_state.md R22; 46_system.md R207). -/
abbrev a0 : Reg := 10
abbrev a1 : Reg := 11
abbrev a2 : Reg := 12
abbrev a7 : Reg := 17

/-- print, call 64: all of the buffer is checked first, a length of 0 reads nothing and cannot fault, the
stream is passed through (R208). How the host shows the bytes is not modelled (log 8). -/
def sysPrint (s : State) : Result :=
  let len := (s.x a2).toNat
  if 0 < len ∧ s.inRange (s.x a1) len = false then
    raise (.illegalMemoryAccess s.pc (s.x a1) len .syscall) s
  else .next ((s.print ⟨s.x a0, s.mem.bytes (s.x a1).toNat len⟩).advance .sequential)

/-- exit, call 93: all 32 bits of a0 are the code (R209). -/
def sysExit (s : State) : Result := .next (s.stop (.exited (s.x a0)))

/-- halt, call 0 (R210). -/
def sysHalt (s : State) : Result := .next (s.stop .halted)

/-- ECALL: the call number is all 32 bits of a7; any other number does nothing (R205, R211). -/
def execEcall (s : State) : Result :=
  if s.x a7 = 64#32 then sysPrint s
  else if s.x a7 = 93#32 then sysExit s
  else if s.x a7 = 0#32 then sysHalt s
  else .next (s.advance .sequential)

/-- EBREAK: a no-op (R206; the spec's decision D12, log 12). -/
def execEbreak (s : State) : Result := .next (s.advance .sequential)

end Sys2Proof.Machine
end

