-- ==== Sys2Proof/Machine/Cycle.lean ====
section
/-! DEFINITION. The instruction cycle of a Running core: fetch, decode, dispatch, execute
(40_decoder_and_cycle.md R95, R96). Writeback and AdvancePC are part of each meaning (`State.retire`,
`State.advance`). -/

namespace Sys2Proof.Machine

/-- The bytes an instruction takes (30_encoding.md R60). -/
def instrBytes : Nat := 4

/-- Fetch: `MemRead(pc, 4)` at whatever value the pc holds (40_decoder_and_cycle.md R96; 20_memory.md R48). -/
def fetch (s : State) : Option Word := memRead s s.pc instrBytes

/-- One instruction cycle. The first fault ends it (60_exceptions.md R229). -/
def cycle (s : State) : Result :=
  match fetch s with
  | none => raise (.illegalMemoryAccess s.pc s.pc instrBytes .fetch) s
  | some w =>
    match decode w with
    | .error _ => raise (.illegalInstruction s.pc w) s
    | .ok i => exec i s

/-- The state with a word laid out at the pc, the status Running as a fetch needs; a pc with no four bytes of
Memory has nowhere to hold it (log 6). -/
def placeWord (s : State) (w : Word) : State :=
  if s.inRange s.pc instrBytes then
    { s with mem := s.mem.setBytes s.pc.toNat (bytesOfWord instrBytes w), status := .running }
  else { s with status := .running }

end Sys2Proof.Machine
end

