-- ==== Sys2Proof/Machine/Step.lean ====
section
/-! DEFINITION. The step: only a Running core executes an instruction (10_state.md R32;
40_decoder_and_cycle.md R95). -/

namespace Sys2Proof.Machine

/-- One step. A core that has stopped has none (93_implementation_defined.md Part 1; log 5). -/
def step (s : State) : Host.Outcome State Fault Refusal :=
  match s.status with
  | .running => cycle s
  | st => .fault (.notRunning st)

/-- s with the table word w of nbits bits where the next step fetches, standing for the loader (log 6). -/
def State.withFetchWord (s : State) (nbits w : Nat) : State :=
  placeWord s (BitVec.ofNat 32 (w % 2 ^ nbits))

end Sys2Proof.Machine
end

