-- ==== Sys2Proof/Machine/Pseudo.lean ====
section
/-! DEFINITION. Notation of the assembler, none of it hardware: register names (10_state.md R22), operand
syntax (30_encoding.md R83) and the pseudo-instructions with their expansions into the 47 (R84). PRESUMED: the
spec marks all but four names and two lines of it as general knowledge (log 15). -/

namespace Sys2Proof.Machine

/-- The alias of a register (10_state.md R22). -/
def abiName (r : Reg) : String :=
  (["zero", "ra", "sp", "gp", "tp", "t0", "t1", "t2", "s0", "s1", "a0", "a1", "a2", "a3", "a4", "a5"] ++
    ["a6", "a7", "s2", "s3", "s4", "s5", "s6", "s7", "s8", "s9", "s10", "s11", "t3", "t4", "t5", "t6"]).getD
    r.val ""

/-- x<i>. -/
def regName (r : Reg) : String := "x" ++ toString r.val

/-- Operands in the order of 30_encoding.md R83. -/
def asmR (op : String) (rd rs1 rs2 : Reg) : String :=
  op ++ " " ++ regName rd ++ ", " ++ regName rs1 ++ ", " ++ regName rs2
def asmI (op : String) (rd rs1 : Reg) (imm : Int) : String :=
  op ++ " " ++ regName rd ++ ", " ++ regName rs1 ++ ", " ++ toString imm
def asmMem (op : String) (r base : Reg) (imm : Int) : String :=
  op ++ " " ++ regName r ++ ", " ++ toString imm ++ "(" ++ regName base ++ ")"
def asmU (op : String) (rd : Reg) (imm : Int) : String :=
  op ++ " " ++ regName rd ++ ", " ++ toString imm

/-- An instruction in the assembler's syntax (30_encoding.md R83), numbers in decimal. -/
def asm : Instr → String
  | .add d a b => asmR "ADD" d a b
  | .sub d a b => asmR "SUB" d a b
  | .sll d a b => asmR "SLL" d a b
  | .slt d a b => asmR "SLT" d a b
  | .sltu d a b => asmR "SLTU" d a b
  | .xor d a b => asmR "XOR" d a b
  | .srl d a b => asmR "SRL" d a b
  | .sra d a b => asmR "SRA" d a b
  | .or d a b => asmR "OR" d a b
  | .and d a b => asmR "AND" d a b
  | .mul d a b => asmR "MUL" d a b
  | .mulh d a b => asmR "MULH" d a b
  | .mulhsu d a b => asmR "MULHSU" d a b
  | .mulhu d a b => asmR "MULHU" d a b
  | .div d a b => asmR "DIV" d a b
  | .divu d a b => asmR "DIVU" d a b
  | .rem d a b => asmR "REM" d a b
  | .remu d a b => asmR "REMU" d a b
  | .addi d a imm => asmI "ADDI" d a imm.toInt
  | .slti d a imm => asmI "SLTI" d a imm.toInt
  | .sltiu d a imm => asmI "SLTIU" d a imm.toInt
  | .xori d a imm => asmI "XORI" d a imm.toInt
  | .ori d a imm => asmI "ORI" d a imm.toInt
  | .andi d a imm => asmI "ANDI" d a imm.toInt
  | .slli d a n => asmI "SLLI" d a n.toNat
  | .srli d a n => asmI "SRLI" d a n.toNat
  | .srai d a n => asmI "SRAI" d a n.toNat
  | .lb d a imm => asmMem "LB" d a imm.toInt
  | .lh d a imm => asmMem "LH" d a imm.toInt
  | .lw d a imm => asmMem "LW" d a imm.toInt
  | .lbu d a imm => asmMem "LBU" d a imm.toInt
  | .lhu d a imm => asmMem "LHU" d a imm.toInt
  | .sb a b imm => asmMem "SB" b a imm.toInt
  | .sh a b imm => asmMem "SH" b a imm.toInt
  | .sw a b imm => asmMem "SW" b a imm.toInt
  | .beq a b imm => asmI "BEQ" a b imm.toInt
  | .bne a b imm => asmI "BNE" a b imm.toInt
  | .blt a b imm => asmI "BLT" a b imm.toInt
  | .bge a b imm => asmI "BGE" a b imm.toInt
  | .bltu a b imm => asmI "BLTU" a b imm.toInt
  | .bgeu a b imm => asmI "BGEU" a b imm.toInt
  | .lui d imm => asmU "LUI" d (imm.toNat / 4096)
  | .auipc d imm => asmU "AUIPC" d (imm.toNat / 4096)
  | .jal d imm => asmU "JAL" d imm.toInt
  | .jalr d a imm => asmMem "JALR" d a imm.toInt
  | .ecall => "ECALL"
  | .ebreak => "EBREAK"

/-- The upper part of a 32-bit constant, as LUI and AUIPC take it: ((c + 0x800) >> 12) << 12
(45_large_immediate.md R200; 30_encoding.md R84). -/
def hiPart (c : Word) : Word := (c + 0x800#32) &&& 0xFFFFF000#32

/-- The lower part: sext_12(c[11:0]). -/
def loPart (c : Word) : Word := sext 12 c

/-- The pseudo-instructions of 30_encoding.md R84. -/
inductive Pseudo where
  | nop
  | mv (rd rs : Reg)
  | li (rd : Reg) (imm : Word)
  | not (rd rs : Reg)
  | neg (rd rs : Reg)
  | seqz (rd rs : Reg)
  | snez (rd rs : Reg)
  | sltz (rd rs : Reg)
  | sgtz (rd rs : Reg)
  | beqz (rs : Reg) (off : Word)
  | bnez (rs : Reg) (off : Word)
  | blez (rs : Reg) (off : Word)
  | bgez (rs : Reg) (off : Word)
  | bltz (rs : Reg) (off : Word)
  | bgtz (rs : Reg) (off : Word)
  | bgt (rs rt : Reg) (off : Word)
  | ble (rs rt : Reg) (off : Word)
  | bgtu (rs rt : Reg) (off : Word)
  | bleu (rs rt : Reg) (off : Word)
  | j (off : Word)
  | jalRa (off : Word)
  | jr (rs : Reg)
  | jalrRa (rs : Reg)
  | ret
  | call (off : Word)
  | la (rd : Reg) (off : Word)
deriving DecidableEq, Repr

/-- The expansion (30_encoding.md R84); `off` of CALL and LA is relative to the AUIPC. -/
def Pseudo.expand : Pseudo → List Instr
  | .nop => [.addi 0 0 0#32]
  | .mv rd rs => [.addi rd rs 0#32]
  | .li rd imm =>
    if immFits12 imm then [.addi rd 0 imm]
    else if imm &&& 0xFFF#32 = 0#32 then [.lui rd (hiPart imm)]
    else [.lui rd (hiPart imm), .addi rd rd (loPart imm)]
  | .not rd rs => [.xori rd rs allOnes]
  | .neg rd rs => [.sub rd 0 rs]
  | .seqz rd rs => [.sltiu rd rs 1#32]
  | .snez rd rs => [.sltu rd 0 rs]
  | .sltz rd rs => [.slt rd rs 0]
  | .sgtz rd rs => [.slt rd 0 rs]
  | .beqz rs off => [.beq rs 0 off]
  | .bnez rs off => [.bne rs 0 off]
  | .blez rs off => [.bge 0 rs off]
  | .bgez rs off => [.bge rs 0 off]
  | .bltz rs off => [.blt rs 0 off]
  | .bgtz rs off => [.blt 0 rs off]
  | .bgt rs rt off => [.blt rt rs off]
  | .ble rs rt off => [.bge rt rs off]
  | .bgtu rs rt off => [.bltu rt rs off]
  | .bleu rs rt off => [.bgeu rt rs off]
  | .j off => [.jal 0 off]
  | .jalRa off => [.jal 1 off]
  | .jr rs => [.jalr 0 rs 0#32]
  | .jalrRa rs => [.jalr 1 rs 0#32]
  | .ret => [.jalr 0 1 0#32]
  | .call off => [.auipc 1 (hiPart off), .jalr 1 1 (loPart off)]
  | .la rd off => [.auipc rd (hiPart off), .addi rd rd (loPart off)]

end Sys2Proof.Machine
end

