-- ==== Sys2Proof/Safety.lean ====
section
/-! DEFINITION. The terms in which claims about the machine are made: the invariant, what an instruction may
change and must leave (frames), runs and how they end (60_exceptions.md R241). -/

namespace Sys2Proof.Machine

/-! ## The invariant -/

/-- Memory is in canonical form, lists no address outside [0, MEM_SIZE), and the slot of x[0] holds zero. -/
def State.inv (s : State) : Bool :=
  s.mem.wf && s.mem.all (fun c => decide (c.1 < s.config.memSize)) && decide (s.regs[0] = 0#32)

/-! ## Frames. Each says of a next state t everything an instruction may do to s, byte by byte for Memory. -/

/-- t is s with v in x[rd] (discarded when rd = 0) and the pc at npc; nothing else differs. -/
structure OnlyRegister (rd : Reg) (v npc : Word) (s t : State) : Prop where
  written : rd ≠ 0 → t.x rd = v
  zero : t.x 0 = 0#32
  kept : ∀ r, r ≠ rd → t.x r = s.x r
  pc : t.pc = npc
  bytes : ∀ a, t.mem.byte a = s.mem.byte a
  status : t.status = s.status
  trace : t.trace = s.trace
  config : t.config = s.config

/-- t is s with the pc at npc, the status st and the events es appended; no register and no byte differs. -/
structure OnlyControl (npc : Word) (st : Status) (es : List PrintEvent) (s t : State) : Prop where
  kept : ∀ r, t.x r = s.x r
  pc : t.pc = npc
  bytes : ∀ a, t.mem.byte a = s.mem.byte a
  status : t.status = st
  trace : t.trace = s.trace ++ es
  config : t.config = s.config

/-- t is s with the pc at npc and the n bytes at addr holding the low n bytes of v, least significant first;
no register and no other byte differs. -/
structure OnlyBytes (addr : Word) (n : Nat) (v npc : Word) (s t : State) : Prop where
  kept : ∀ r, t.x r = s.x r
  pc : t.pc = npc
  stored : ∀ k, k < n → t.mem.byte (addr.toNat + k) = v.extractLsb' (8 * k) 8
  bytes : ∀ a, a < addr.toNat ∨ addr.toNat + n ≤ a → t.mem.byte a = s.mem.byte a
  status : t.status = s.status
  trace : t.trace = s.trace
  config : t.config = s.config

/-- t is s after the fault entry with cause c: only the status differs. -/
structure OnlyFaulted (c : Cause) (s t : State) : Prop where
  kept : ∀ r, t.x r = s.x r
  pc : t.pc = s.pc
  bytes : ∀ a, t.mem.byte a = s.mem.byte a
  status : t.status = .faulted c
  trace : t.trace = s.trace
  config : t.config = s.config

/-! ## Bytes read together, written out from the byte order (20_memory.md R43, R45) -/

/-- The 16-bit value of the two bytes at a. -/
def State.halfAt (s : State) (a : Nat) : BitVec 16 := s.mem.byte (a + 1) ++ s.mem.byte a

/-- The word of the four bytes at a. -/
def State.wordAt (s : State) (a : Nat) : Word :=
  s.mem.byte (a + 3) ++ s.mem.byte (a + 2) ++ s.mem.byte (a + 1) ++ s.mem.byte a

/-! ## Runs -/

/-- The instructions of a list one after another, for claims about an expansion of 30_encoding.md R84. -/
def execAll : List Instr → State → Result
  | [], s => .next s
  | i :: is, s =>
    match exec i s with
    | .next t => execAll is t
    | .fault r => .fault r
    | .refused r => .refused r

/-- t is reached from s by steps that each answer a next state. -/
inductive Reaches (s : State) : State → Prop where
  | refl : Reaches s s
  | step {t u : State} : Reaches s t → step t = .next u → Reaches s u

/-- The two normal ends of a run (60_exceptions.md R241). -/
def State.endedNormally (s : State) : Bool :=
  match s.status with
  | .exited _ | .halted => true
  | .running | .faulted _ => false

/-- No step of the run from s takes a fault. -/
def Safe (s : State) : Prop := ∀ t, Reaches s t → ∀ c u, step t ≠ .fault (.raised c u)

end Sys2Proof.Machine

/-! ## Classes of instructions, for rules about the whole machine -/

namespace Sys2Proof

/-- SB, SH, SW: the only instructions that write Memory. -/
def Instr.isStore : Instr → Bool
  | .sb _ _ _ | .sh _ _ _ | .sw _ _ _ => true
  | _ => false

/-- LB, LH, LW, LBU, LHU. -/
def Instr.isLoad : Instr → Bool
  | .lb _ _ _ | .lh _ _ _ | .lw _ _ _ | .lbu _ _ _ | .lhu _ _ _ => true
  | _ => false

/-- The branches, JAL and JALR: the only instructions that set the pc. -/
def Instr.isTransfer : Instr → Bool
  | .beq _ _ _ | .bne _ _ _ | .blt _ _ _ | .bge _ _ _ | .bltu _ _ _ | .bgeu _ _ _ | .jal _ _
  | .jalr _ _ _ => true
  | _ => false

end Sys2Proof
end

