-- ==== Sys2Proof/Certificates/Slice0/Obligations.lean ====
section
/-! DEFINITION. The statements about the model for the provers, from the spec's numbered rules. A docstring says
where a statement rests on a choice the spec marks as its own (a decision D<n>, a derivation, general
knowledge G<n>) or on a choice of the model (a log entry). -/

open Sys2Proof Sys2Proof.Machine

/-! ## Encoding -/

/-- Words written out from the encodings, one or more for each variant (95_test_vectors.md 2.1, 2.10; the func
values are the spec's decision D1). -/
def Obligations.WordsOfTheSpecDecode : Prop :=
  decode 0x002081B3#32 = .ok (.add 3 1 2) ∧
  decode 0x40435293#32 = .ok (.srai 5 6 4#5) ∧
  decode 0x0012C383#32 = .ok (.lbu 7 5 1#32) ∧
  decode 0xFE732E23#32 = .ok (.sw 6 7 0xFFFFFFFC#32) ∧
  decode 0x7E000FE3#32 = .ok (.beq 0 0 0x00000FFE#32) ∧
  decode 0x7FFFF0EF#32 = .ok (.jal 1 0x000FFFFE#32) ∧
  decode 0xFFC300E7#32 = .ok (.jalr 1 6 0xFFFFFFFC#32) ∧
  decode 0xABCDE2B7#32 = .ok (.lui 5 0xABCDE000#32) ∧
  decode 0xABCDE297#32 = .ok (.auipc 5 0xABCDE000#32) ∧
  decode 0x00000073#32 = .ok .ecall ∧
  decode 0x00100073#32 = .ok .ebreak ∧
  decode 0x0FF0000F#32 = .error .unknownOpcode ∧
  decode 0x30200073#32 = .error .systemWord

/-- 40_decoder_and_cycle.md R92: the decode function in full, with the fields of 30_encoding.md R61 and the
immediates of R63 to R67 as arithmetic on the word's value; `sign` is w[31]. -/
def Obligations.DecodeFunctionInFull : Prop :=
  ∀ w : Word,
    let n : Nat := w.toNat
    let rd : Reg := Fin.ofNat 32 (n / 2 ^ 7)
    let rs1 : Reg := Fin.ofNat 32 (n / 2 ^ 15)
    let rs2 : Reg := Fin.ofNat 32 (n / 2 ^ 20)
    let func3 := BitVec.ofNat 3 (n / 2 ^ 12)
    let func7 := BitVec.ofNat 7 (n / 2 ^ 25)
    let sign : Nat := n / 2 ^ 31
    let uI : Nat := n / 2 ^ 20
    let uS : Nat := n / 2 ^ 25 * 2 ^ 5 + n / 2 ^ 7 % 2 ^ 5
    let uB : Nat := sign * 2 ^ 12 + n / 2 ^ 7 % 2 * 2 ^ 11 + n / 2 ^ 25 % 2 ^ 6 * 2 ^ 5
      + n / 2 ^ 8 % 2 ^ 4 * 2
    let uJ : Nat := sign * 2 ^ 20 + n / 2 ^ 12 % 2 ^ 8 * 2 ^ 12 + n / 2 ^ 20 % 2 * 2 ^ 11
      + n / 2 ^ 21 % 2 ^ 10 * 2
    let immI := BitVec.ofInt 32 ((uI : Int) - 2 ^ 12 * (sign : Int))
    let immS := BitVec.ofInt 32 ((uS : Int) - 2 ^ 12 * (sign : Int))
    let immB := BitVec.ofInt 32 ((uB : Int) - 2 ^ 13 * (sign : Int))
    let immU := BitVec.ofNat 32 (n / 2 ^ 12 * 2 ^ 12)
    let immJ := BitVec.ofInt 32 ((uJ : Int) - 2 ^ 21 * (sign : Int))
    decodeFields w =
      if n % 2 ^ 7 = 0b0110011 then .r rd rs1 rs2 func3 func7
      else if n % 2 ^ 7 = 0b0010011 then .iArith rd rs1 func3 func7 immI
      else if n % 2 ^ 7 = 0b0000011 then .iLoad rd rs1 func3 immI
      else if n % 2 ^ 7 = 0b1100111 then .iJalr rd rs1 func3 immI
      else if n % 2 ^ 7 = 0b1110011 then .iSystem rd rs1 func3 immI
      else if n % 2 ^ 7 = 0b0100011 then .s rs1 rs2 func3 immS
      else if n % 2 ^ 7 = 0b1100011 then .b rs1 rs2 func3 immB
      else if n % 2 ^ 7 = 0b0110111 then .uLui rd immU
      else if n % 2 ^ 7 = 0b0010111 then .uAuipc rd immU
      else if n % 2 ^ 7 = 0b1101111 then .j rd immJ
      else .unknown w

/-- A word decodes to an R-variant instruction with its own register fields exactly when it has the row's
fixed bits. -/
abbrev RowIsR (m : Word) (c : Reg → Reg → Reg → Instr) : Prop :=
  ∀ w : Word, (w &&& 0xFE00707F#32 = m → decode w = .ok (c (rdOf w) (rs1Of w) (rs2Of w))) ∧
    (∀ a b d, decode w = .ok (c a b d) → w &&& 0xFE00707F#32 = m)

/-- The same for a shift-immediate, whose amount is w[24:20]. -/
abbrev RowIsShift (m : Word) (c : Reg → Reg → BitVec 5 → Instr) : Prop :=
  ∀ w : Word, (w &&& 0xFE00707F#32 = m →
      decode w = .ok (c (rdOf w) (rs1Of w) (w.extractLsb' 20 5))) ∧
    (∀ a b d, decode w = .ok (c a b d) → w &&& 0xFE00707F#32 = m)

/-- The same for an instruction of the I format with an immediate. -/
abbrev RowIsI (m : Word) (c : Reg → Reg → Word → Instr) : Prop :=
  ∀ w : Word, (w &&& 0x0000707F#32 = m → decode w = .ok (c (rdOf w) (rs1Of w) (immI w))) ∧
    (∀ a b d, decode w = .ok (c a b d) → w &&& 0x0000707F#32 = m)

/-- The same for the S and B formats, with the format's immediate. -/
abbrev RowIsSB (m : Word) (imm : Word → Word) (c : Reg → Reg → Word → Instr) : Prop :=
  ∀ w : Word, (w &&& 0x0000707F#32 = m → decode w = .ok (c (rs1Of w) (rs2Of w) (imm w))) ∧
    (∀ a b d, decode w = .ok (c a b d) → w &&& 0x0000707F#32 = m)

/-- The same for the formats the opcode alone selects. -/
abbrev RowIsU (m : Word) (imm : Word → Word) (c : Reg → Word → Instr) : Prop :=
  ∀ w : Word, (w &&& 0x0000007F#32 = m → decode w = .ok (c (rdOf w) (imm w))) ∧
    (∀ a d, decode w = .ok (c a d) → w &&& 0x0000007F#32 = m)

/-- 30_encoding.md R72, the 18 rows of opcode 0110011 with their match and mask (the func values are the
spec's decision D1, G1). -/
def Obligations.OpRowsOfTheTable : Prop :=
  RowIsR 0x00000033#32 .add ∧ RowIsR 0x40000033#32 .sub ∧ RowIsR 0x00001033#32 .sll ∧
  RowIsR 0x00002033#32 .slt ∧ RowIsR 0x00003033#32 .sltu ∧ RowIsR 0x00004033#32 .xor ∧
  RowIsR 0x00005033#32 .srl ∧ RowIsR 0x40005033#32 .sra ∧ RowIsR 0x00006033#32 .or ∧
  RowIsR 0x00007033#32 .and ∧ RowIsR 0x02000033#32 .mul ∧ RowIsR 0x02001033#32 .mulh ∧
  RowIsR 0x02002033#32 .mulhsu ∧ RowIsR 0x02003033#32 .mulhu ∧ RowIsR 0x02004033#32 .div ∧
  RowIsR 0x02005033#32 .divu ∧ RowIsR 0x02006033#32 .rem ∧ RowIsR 0x02007033#32 .remu

/-- 30_encoding.md R73, R74 and R77: the rows of opcodes 0010011, 0000011 and 1100111 (the func values are the
spec's decisions D1, D9, D10, G2, G3, G5). -/
def Obligations.ImmediateRowsOfTheTable : Prop :=
  RowIsI 0x00000013#32 .addi ∧ RowIsI 0x00002013#32 .slti ∧ RowIsI 0x00003013#32 .sltiu ∧
  RowIsI 0x00004013#32 .xori ∧ RowIsI 0x00006013#32 .ori ∧ RowIsI 0x00007013#32 .andi ∧
  RowIsShift 0x00001013#32 .slli ∧ RowIsShift 0x00005013#32 .srli ∧
  RowIsShift 0x40005013#32 .srai ∧
  RowIsI 0x00000003#32 .lb ∧ RowIsI 0x00001003#32 .lh ∧ RowIsI 0x00002003#32 .lw ∧
  RowIsI 0x00004003#32 .lbu ∧ RowIsI 0x00005003#32 .lhu ∧ RowIsI 0x00000067#32 .jalr

/-- 30_encoding.md R75, R76, R78 and R79: the rows of the other six opcodes (the func values are the spec's
decisions D1, D11, G3, G4, G6). -/
def Obligations.StoreBranchAndUpperRowsOfTheTable : Prop :=
  RowIsSB 0x00000023#32 immS .sb ∧ RowIsSB 0x00001023#32 immS .sh ∧ RowIsSB 0x00002023#32 immS .sw ∧
  RowIsSB 0x00000063#32 immB .beq ∧ RowIsSB 0x00001063#32 immB .bne ∧
  RowIsSB 0x00004063#32 immB .blt ∧ RowIsSB 0x00005063#32 immB .bge ∧
  RowIsSB 0x00006063#32 immB .bltu ∧ RowIsSB 0x00007063#32 immB .bgeu ∧
  RowIsU 0x00000037#32 immU .lui ∧ RowIsU 0x00000017#32 immU .auipc ∧
  RowIsU 0x0000006F#32 immJ .jal ∧
  (∀ w : Word, decode w = .ok .ecall ↔ w = 0x00000073#32) ∧
  (∀ w : Word, decode w = .ok .ebreak ↔ w = 0x00100073#32)

/-- 30_encoding.md R80: the words that are illegal, case by case, and no other word is (the raise is the spec's
decision D2, the strict sub-decode D9 to D11). -/
def Obligations.IllegalWordsAreTheEightCases : Prop :=
  ∀ w : Word,
    let op := w.toNat % 2 ^ 7
    let func3 := w.toNat / 2 ^ 12 % 2 ^ 3
    let func7 := w.toNat / 2 ^ 25
    (decode w = .error .unknownOpcode ↔
      op ∉ [0b0110011, 0b0010011, 0b0000011, 0b1100111, 0b1110011, 0b0100011, 0b1100011, 0b0110111,
        0b0010111, 0b1101111]) ∧
    (decode w = .error .opFunc ↔ op = 0b0110011 ∧
      (func7 ∉ [0b0000000, 0b0100000, 0b0000001] ∨ (func7 = 0b0100000 ∧ func3 ∉ [0b000, 0b101]))) ∧
    (decode w = .error .shiftFunc7 ↔ op = 0b0010011 ∧
      ((func3 = 0b001 ∧ func7 ≠ 0b0000000) ∨
        (func3 = 0b101 ∧ func7 ≠ 0b0000000 ∧ func7 ≠ 0b0100000))) ∧
    (decode w = .error .loadWidth ↔ op = 0b0000011 ∧ func3 ∈ [0b011, 0b110, 0b111]) ∧
    (decode w = .error .storeWidth ↔ op = 0b0100011 ∧ func3 ∈ [0b011, 0b100, 0b101, 0b110, 0b111]) ∧
    (decode w = .error .branchCond ↔ op = 0b1100011 ∧ func3 ∈ [0b010, 0b011]) ∧
    (decode w = .error .jalrFunc3 ↔ op = 0b1100111 ∧ func3 ≠ 0b000) ∧
    (decode w = .error .systemWord ↔
      op = 0b1110011 ∧ w ≠ 0x00000073#32 ∧ w ≠ 0x00100073#32) ∧
    decode w ≠ .error .truncated

/-- Decode and encode agree: every well-formed instruction, with every operand at every value its encoding
admits, comes back from its word. -/
def Obligations.DecodeOfEncodeIsTheInstruction : Prop :=
  ∀ i : Instr, i.wf = true → decode (encode i) = .ok i

/-- The other direction: a legal word is the encoding of the one instruction it decodes to, which is
well-formed (the immediate ranges of 30_encoding.md R63 to R67). -/
def Obligations.EncodeOfDecodeIsTheWord : Prop :=
  ∀ (w : Word) (i : Instr), decode w = .ok i → encode i = w ∧ i.wf = true

/-! ## The instruction cycle -/

/-- 40_decoder_and_cycle.md R95, R96: a Running core whose four bytes at the pc are in range and decode to i
does exactly what i does; Writeback and AdvancePC are in exec. -/
def Obligations.StepRunsTheDecodedInstruction : Prop :=
  ∀ (s : State) (i : Instr), s.status = .running → s.pc.toNat + 4 ≤ s.config.memSize →
    decode (s.wordAt s.pc.toNat) = .ok i → step s = exec i s

/-- 40_decoder_and_cycle.md R96, 60_exceptions.md R222, R226, R229: a fetch out of range faults, whatever
bytes lie there (decisions D3, D4, D18). -/
def Obligations.FetchOutOfRangeFaults : Prop :=
  ∀ s : State, s.status = .running → s.config.memSize < s.pc.toNat + 4 →
    ∃ t, step s = .fault (.raised (.illegalMemoryAccess s.pc s.pc 4 .fetch) t) ∧
      OnlyFaulted (.illegalMemoryAccess s.pc s.pc 4 .fetch) s t

/-- 60_exceptions.md R221, R226: an illegal word at the pc faults, recording the pc and the word (decisions D2,
D3, D18). -/
def Obligations.IllegalWordFaults : Prop :=
  ∀ (s : State) (e : Illegal), s.status = .running → s.pc.toNat + 4 ≤ s.config.memSize →
    decode (s.wordAt s.pc.toNat) = .error e →
    ∃ t, step s = .fault (.raised (.illegalInstruction s.pc (s.wordAt s.pc.toNat)) t) ∧
      OnlyFaulted (.illegalInstruction s.pc (s.wordAt s.pc.toNat)) s t

/-- 10_state.md R32 (decision D3): a core that is not Running takes no step, and reset makes it Running. -/
def Obligations.StoppedCoreHasNoStep : Prop :=
  ∀ s : State, s.status ≠ .running →
    step s = .fault (.notRunning s.status) ∧ s.coreReset.status = .running

/-- 60_exceptions.md R226, R228 (decision D3): whatever fault a step takes, only the status changes, the cause
carries the pc, and the faulted core takes no further step. -/
def Obligations.FaultsArePreciseAndFinal : Prop :=
  ∀ (s t : State) (c : Cause), step s = .fault (.raised c t) →
    s.status = .running ∧ OnlyFaulted c s t ∧ step t = .fault (.notRunning (.faulted c)) ∧
      ((∃ w, c = .illegalInstruction s.pc w) ∨ ∃ a n k, c = .illegalMemoryAccess s.pc a n k)

/-- 60_exceptions.md R220, R223, R224, R232: an instruction faults only by an access out of range of a load, a
store or the print call; every other instruction completes, and none is refused. -/
def Obligations.OnlyOutOfRangeAccessesFault : Prop :=
  ∀ (i : Instr) (s : State),
    (∃ t, exec i s = .next t) ∨
    ((i.isLoad = true ∨ i.isStore = true ∨ (i = .ecall ∧ s.x 17 = 64#32)) ∧
      ∃ a n k t, s.config.memSize < a.toNat + n ∧
        exec i s = .fault (.raised (.illegalMemoryAccess s.pc a n k) t))

/-! ## Rules about every step -/

/-- Every step keeps the invariant: Memory in canonical form inside [0, MEM_SIZE) and x[0]'s slot zero. -/
def Obligations.StepKeepsTheInvariant : Prop :=
  ∀ s t : State, s.inv = true → step s = .next t → t.inv = true

/-- The state after reset meets it. -/
def Obligations.ResetMeetsTheInvariant : Prop := State.reset.inv = true

/-- Every state a run reaches from a boot with any parameters and any canonical MEM_INIT inside Memory meets
the invariant, has those parameters still, and is not Faulted. A corollary for runs of StepKeepsTheInvariant and
ParametersNeverChange. The model's choices it rests on: the canonical form and the unread slot of x[0] (log 3,
20), the parameters held in State (log 1), a fault as an outcome of its own and no next state (log 4), no reset
inside a run (log 7). -/
def Obligations.EveryReachedStateMeetsTheInvariant : Prop :=
  ∀ (k : Config) (m : Memory) (t : State), m.wf = true → (∀ c ∈ m, c.1 < k.memSize) →
    Reaches (State.boot k m) t →
    t.inv = true ∧ t.config = k ∧ ∀ c, t.status ≠ .faulted c

/-- 10_state.md R27 (derived there): from an even pc every next pc is even. -/
def Obligations.EvenPcStaysEven : Prop :=
  ∀ s t : State, s.pc.toNat % 2 = 0 → step s = .next t → t.pc.toNat % 2 = 0

/-- 00_scope.md R5: no step changes RESET_PC or MEM_SIZE (log 1), and MEM_SIZE is from 1 to 2^32. -/
def Obligations.ParametersNeverChange : Prop :=
  ∀ s t : State, step s = .next t →
    t.config = s.config ∧ 1 ≤ t.config.memSize ∧ t.config.memSize ≤ 2 ^ 32

/-- 10_state.md R32, 40_decoder_and_cycle.md R99, 46_system.md R207: a step that changes the status or the trace
is an ECALL; the status becomes Exited(x[10]) by call 93 or Halted by call 0, and the trace grows by one event
by call 64. -/
def Obligations.OnlyEcallEndsTheRunOrPrints : Prop :=
  ∀ s t : State, step s = .next t →
    (t.status = .running ∧ t.trace = s.trace) ∨
    (s.wordAt s.pc.toNat = 0x00000073#32 ∧
      ((s.x 17 = 93#32 ∧ t.status = .exited (s.x 10) ∧ t.trace = s.trace) ∨
        (s.x 17 = 0#32 ∧ t.status = .halted ∧ t.trace = s.trace) ∨
        (s.x 17 = 64#32 ∧ t.status = .running ∧ ∃ e, t.trace = s.trace ++ [e])))

/-- 20_memory.md R40, 46_system.md R212: a step that is not a store leaves every byte of Memory. -/
def Obligations.OnlyStoresWriteMemory : Prop :=
  ∀ (s t : State) (i : Instr), step s = .next t → decode (s.wordAt s.pc.toNat) = .ok i →
    i.isStore = false → ∀ a, t.mem.byte a = s.mem.byte a

/-- 10_state.md R26, 40_decoder_and_cycle.md R97: only branches, JAL and JALR set the pc; every other step adds 4
modulo 2^32 (decision D6), or leaves it where the run ended. -/
def Obligations.OnlyTransfersSetThePc : Prop :=
  ∀ (s t : State) (i : Instr), step s = .next t → decode (s.wordAt s.pc.toNat) = .ok i →
    i.isTransfer = false →
    if t.status = .running then t.pc = s.pc + 4#32 else t.pc = s.pc

/-- 10_state.md R23, R24: a step writes at most one register, and never x[0]; branches, stores, ECALL and EBREAK
write none. -/
def Obligations.AtMostOneRegisterIsWritten : Prop :=
  ∀ (s t : State) (i : Instr), step s = .next t → decode (s.wordAt s.pc.toNat) = .ok i →
    (∃ rd, ∀ r, r ≠ rd → t.x r = s.x r) ∧ t.x 0 = 0#32 ∧
    ((i.isStore = true ∨ i = .ecall ∨ i = .ebreak ∨
        ∃ a b d, i = .beq a b d ∨ i = .bne a b d ∨ i = .blt a b d ∨ i = .bge a b d ∨
          i = .bltu a b d ∨ i = .bgeu a b d) →
      ∀ r, t.x r = s.x r)

/-- 10_state.md R21: x[0] reads as zero and a write to it changes nothing; any other register reads back what
was written and leaves the rest. -/
def Obligations.RegisterZeroIsHardwired : Prop :=
  ∀ (s : State) (r : Reg) (v : Word),
    s.x 0 = 0#32 ∧ s.setX 0 v = s ∧ (r ≠ 0 → (s.setX r v).x r = v) ∧
      ∀ q, q ≠ r → (s.setX r v).x q = s.x q

/-- 10_state.md R34: the core never reads the print trace: from a state with another trace the step does the
same, appending the same events. -/
def Obligations.TheTraceIsNeverRead : Prop :=
  ∀ (s t : State) (tr : List PrintEvent), step s = .next t →
    ∃ es, es.length ≤ 1 ∧ t.trace = s.trace ++ es ∧
      step { s with trace := tr } = .next { t with trace := tr ++ es }

/-! ## ALU (41_alu.md) -/

/-- 41_alu.md R110: ADD, ADDI and SUB keep the low 32 bits of the sum or difference and never trap; the result
is the right one under the signed and under the unsigned reading whenever the true result fits. -/
def Obligations.AddAndSubtractWrap : Prop :=
  ∀ (s : State) (rd rs1 rs2 : Reg) (imm : Word),
    (∃ t, exec (.add rd rs1 rs2) s = .next t ∧
      OnlyRegister rd (BitVec.ofNat 32 ((s.x rs1).toNat + (s.x rs2).toNat)) (s.pc + 4#32) s t) ∧
    (∃ t, exec (.addi rd rs1 imm) s = .next t ∧
      OnlyRegister rd (BitVec.ofNat 32 ((s.x rs1).toNat + imm.toNat)) (s.pc + 4#32) s t) ∧
    (∃ t, exec (.sub rd rs1 rs2) s = .next t ∧
      OnlyRegister rd (BitVec.ofNat 32 ((s.x rs1).toNat + (~~~ (s.x rs2)).toNat + 1)) (s.pc + 4#32) s t ∧
      OnlyRegister rd (BitVec.ofInt 32 ((s.x rs1).toNat - (s.x rs2).toNat)) (s.pc + 4#32) s t) ∧
    ∀ a b : Word,
      (-2 ^ 31 ≤ a.toInt + b.toInt → a.toInt + b.toInt < 2 ^ 31 →
        (BitVec.ofNat 32 (a.toNat + b.toNat)).toInt = a.toInt + b.toInt) ∧
      (-2 ^ 31 ≤ a.toInt - b.toInt → a.toInt - b.toInt < 2 ^ 31 →
        (BitVec.ofInt 32 ((a.toNat : Int) - b.toNat)).toInt = a.toInt - b.toInt) ∧
      (a.toNat + b.toNat < 2 ^ 32 →
        (BitVec.ofNat 32 (a.toNat + b.toNat)).toNat = a.toNat + b.toNat) ∧
      (b.toNat ≤ a.toNat →
        (BitVec.ofInt 32 ((a.toNat : Int) - b.toNat)).toNat = a.toNat - b.toNat)

/-- 41_alu.md R111: bit k of the result is the AND, OR or exclusive OR of bit k of the operands. -/
def Obligations.LogicIsBitwise : Prop :=
  ∀ (s : State) (rd rs1 rs2 : Reg) (imm : Word),
    (∃ t v, exec (.and rd rs1 rs2) s = .next t ∧ OnlyRegister rd v (s.pc + 4#32) s t ∧
      ∀ k < 32, v.getLsbD k = ((s.x rs1).getLsbD k && (s.x rs2).getLsbD k)) ∧
    (∃ t v, exec (.or rd rs1 rs2) s = .next t ∧ OnlyRegister rd v (s.pc + 4#32) s t ∧
      ∀ k < 32, v.getLsbD k = ((s.x rs1).getLsbD k || (s.x rs2).getLsbD k)) ∧
    (∃ t v, exec (.xor rd rs1 rs2) s = .next t ∧ OnlyRegister rd v (s.pc + 4#32) s t ∧
      ∀ k < 32, v.getLsbD k = ((s.x rs1).getLsbD k ^^ (s.x rs2).getLsbD k)) ∧
    (∃ t v, exec (.andi rd rs1 imm) s = .next t ∧ OnlyRegister rd v (s.pc + 4#32) s t ∧
      ∀ k < 32, v.getLsbD k = ((s.x rs1).getLsbD k && imm.getLsbD k)) ∧
    (∃ t v, exec (.ori rd rs1 imm) s = .next t ∧ OnlyRegister rd v (s.pc + 4#32) s t ∧
      ∀ k < 32, v.getLsbD k = ((s.x rs1).getLsbD k || imm.getLsbD k)) ∧
    (∃ t v, exec (.xori rd rs1 imm) s = .next t ∧ OnlyRegister rd v (s.pc + 4#32) s t ∧
      ∀ k < 32, v.getLsbD k = ((s.x rs1).getLsbD k ^^ imm.getLsbD k))

/-- 41_alu.md R112: with n the amount's low five bits, a left shift gives u * 2^n modulo 2^32, a logical right
shift floor(u / 2^n), an arithmetic one floor(s / 2^n), that is the value moved down by n with its top n bits
copies of the sign; a shift-immediate's n is w[24:20], the low five bits of the decoder's immediate. -/
def Obligations.ShiftsMaskTheAmountToFiveBits : Prop :=
  (∀ (s : State) (rd rs1 rs2 : Reg) (shamt : BitVec 5),
    (∃ t, exec (.sll rd rs1 rs2) s = .next t ∧
      OnlyRegister rd (BitVec.ofNat 32 ((s.x rs1).toNat * 2 ^ ((s.x rs2).toNat % 32)))
        (s.pc + 4#32) s t) ∧
    (∃ t, exec (.srl rd rs1 rs2) s = .next t ∧
      OnlyRegister rd (BitVec.ofNat 32 ((s.x rs1).toNat / 2 ^ ((s.x rs2).toNat % 32)))
        (s.pc + 4#32) s t) ∧
    (∃ t, exec (.sra rd rs1 rs2) s = .next t ∧
      OnlyRegister rd (BitVec.ofInt 32 ((s.x rs1).toInt / 2 ^ ((s.x rs2).toNat % 32)))
        (s.pc + 4#32) s t) ∧
    (∃ t, exec (.slli rd rs1 shamt) s = .next t ∧
      OnlyRegister rd (BitVec.ofNat 32 ((s.x rs1).toNat * 2 ^ shamt.toNat)) (s.pc + 4#32) s t) ∧
    (∃ t, exec (.srli rd rs1 shamt) s = .next t ∧
      OnlyRegister rd (BitVec.ofNat 32 ((s.x rs1).toNat / 2 ^ shamt.toNat)) (s.pc + 4#32) s t) ∧
    (∃ t, exec (.srai rd rs1 shamt) s = .next t ∧
      OnlyRegister rd (BitVec.ofInt 32 ((s.x rs1).toInt / 2 ^ shamt.toNat)) (s.pc + 4#32) s t)) ∧
  (∀ (v : Word) (n k : Nat), n < 32 → k < 32 →
    (BitVec.ofInt 32 (v.toInt / 2 ^ n)).getLsbD k =
      if k + n < 32 then v.getLsbD (k + n) else v.getLsbD 31) ∧
  ∀ w : Word, (immI w).toNat % 32 = w.toNat / 2 ^ 20 % 32

/-- 41_alu.md R113, R117, R118, R125, R126 (that all four use cond = lt is derived there): the result is 1 or 0
over the full width. -/
def Obligations.ComparesWriteOneOrZero : Prop :=
  ∀ (s : State) (rd rs1 rs2 : Reg) (imm : Word),
    (∃ t, exec (.slt rd rs1 rs2) s = .next t ∧
      OnlyRegister rd (if (s.x rs1).toInt < (s.x rs2).toInt then 1#32 else 0#32) (s.pc + 4#32) s t) ∧
    (∃ t, exec (.sltu rd rs1 rs2) s = .next t ∧
      OnlyRegister rd (if (s.x rs1).toNat < (s.x rs2).toNat then 1#32 else 0#32) (s.pc + 4#32) s t) ∧
    (∃ t, exec (.slti rd rs1 imm) s = .next t ∧
      OnlyRegister rd (if (s.x rs1).toInt < imm.toInt then 1#32 else 0#32) (s.pc + 4#32) s t) ∧
    (∃ t, exec (.sltiu rd rs1 imm) s = .next t ∧
      OnlyRegister rd (if (s.x rs1).toNat < imm.toNat then 1#32 else 0#32) (s.pc + 4#32) s t)

/-! ## Multiply and divide (42_muldiv.md) -/

/-- 42_muldiv.md R140 to R144: MUL the low word of the product, the same under either reading; MULH, MULHSU and
MULHU floor(P / 2^32) (that rs1 is MULHSU's signed operand is the spec's decision D19). -/
def Obligations.MultiplyReturnsTheExactProduct : Prop :=
  ∀ (s : State) (rd rs1 rs2 : Reg),
    (∃ t, exec (.mul rd rs1 rs2) s = .next t ∧
      OnlyRegister rd (BitVec.ofNat 32 ((s.x rs1).toNat * (s.x rs2).toNat)) (s.pc + 4#32) s t ∧
      OnlyRegister rd (BitVec.ofInt 32 ((s.x rs1).toInt * (s.x rs2).toInt)) (s.pc + 4#32) s t) ∧
    (∃ t, exec (.mulh rd rs1 rs2) s = .next t ∧
      OnlyRegister rd (BitVec.ofInt 32 ((s.x rs1).toInt * (s.x rs2).toInt / 2 ^ 32))
        (s.pc + 4#32) s t) ∧
    (∃ t, exec (.mulhsu rd rs1 rs2) s = .next t ∧
      OnlyRegister rd (BitVec.ofInt 32 ((s.x rs1).toInt * ((s.x rs2).toNat : Int) / 2 ^ 32))
        (s.pc + 4#32) s t) ∧
    (∃ t, exec (.mulhu rd rs1 rs2) s = .next t ∧
      OnlyRegister rd (BitVec.ofNat 32 ((s.x rs1).toNat * (s.x rs2).toNat / 2 ^ 32))
        (s.pc + 4#32) s t)

/-- 42_muldiv.md R145 and R147 away from the corners: the quotient's magnitude is floor(|a| / |b|) and it is
negative exactly when the signs differ and the magnitude is not 0; the remainder's magnitude is |a| mod |b| and
its sign the dividend's. -/
def Obligations.SignedDivisionTruncates : Prop :=
  ∀ (s : State) (rd rs1 rs2 : Reg), s.x rs2 ≠ 0#32 →
    ¬ (s.x rs1 = 0x80000000#32 ∧ s.x rs2 = 0xFFFFFFFF#32) →
    (∃ t v, exec (.div rd rs1 rs2) s = .next t ∧ OnlyRegister rd v (s.pc + 4#32) s t ∧
      v.toInt.natAbs = (s.x rs1).toInt.natAbs / (s.x rs2).toInt.natAbs ∧
      (v.toInt < 0 ↔ v ≠ 0#32 ∧ ((s.x rs1).toInt < 0 ↔ 0 < (s.x rs2).toInt))) ∧
    (∃ t v, exec (.rem rd rs1 rs2) s = .next t ∧ OnlyRegister rd v (s.pc + 4#32) s t ∧
      v.toInt.natAbs = (s.x rs1).toInt.natAbs % (s.x rs2).toInt.natAbs ∧
      (v.toInt < 0 ↔ v ≠ 0#32 ∧ (s.x rs1).toInt < 0))

/-- 42_muldiv.md R149: division never raises: all four complete on every operand pair, with the defined results
for a zero divisor and for INT32_MIN / -1. The overflow case is that one pair and exists only for DIV and REM:
every other quotient is the truncated or the floor quotient, every other remainder the one that goes with it. -/
def Obligations.DivisionNeverRaises : Prop :=
  ∀ (s : State) (rd rs1 rs2 : Reg),
    let a := s.x rs1
    let b := s.x rs2
    (∃ t v, exec (.div rd rs1 rs2) s = .next t ∧ OnlyRegister rd v (s.pc + 4#32) s t ∧
      (b = 0#32 → v = 0xFFFFFFFF#32) ∧
      (a = 0x80000000#32 → b = 0xFFFFFFFF#32 → v = 0x80000000#32) ∧
      (b ≠ 0#32 → ¬ (a = 0x80000000#32 ∧ b = 0xFFFFFFFF#32) → v.toInt = a.toInt.tdiv b.toInt)) ∧
    (∃ t v, exec (.divu rd rs1 rs2) s = .next t ∧ OnlyRegister rd v (s.pc + 4#32) s t ∧
      (b = 0#32 → v = 0xFFFFFFFF#32) ∧ (b ≠ 0#32 → v.toNat = a.toNat / b.toNat)) ∧
    (∃ t v, exec (.rem rd rs1 rs2) s = .next t ∧ OnlyRegister rd v (s.pc + 4#32) s t ∧
      (b = 0#32 → v = a) ∧
      (a = 0x80000000#32 → b = 0xFFFFFFFF#32 → v = 0#32) ∧
      (b ≠ 0#32 → ¬ (a = 0x80000000#32 ∧ b = 0xFFFFFFFF#32) →
        v.toInt = a.toInt - b.toInt * a.toInt.tdiv b.toInt)) ∧
    (∃ t v, exec (.remu rd rs1 rs2) s = .next t ∧ OnlyRegister rd v (s.pc + 4#32) s t ∧
      (b = 0#32 → v = a) ∧ (b ≠ 0#32 → v.toNat = a.toNat % b.toNat))

/-- 42_muldiv.md R150 (derived there): divisor * quotient + remainder = dividend modulo 2^32, for every operand
pair, the corners included. -/
def Obligations.QuotientAndRemainderRebuildTheDividend : Prop :=
  ∀ (s : State) (rd rs1 rs2 : Reg), rd ≠ 0 →
    (∃ q r, exec (.div rd rs1 rs2) s = .next q ∧ exec (.rem rd rs1 rs2) s = .next r ∧
      s.x rs2 * q.x rd + r.x rd = s.x rs1) ∧
    (∃ q r, exec (.divu rd rs1 rs2) s = .next q ∧ exec (.remu rd rs1 rs2) s = .next r ∧
      s.x rs2 * q.x rd + r.x rd = s.x rs1)

/-! ## Loads and stores (43_load_store.md, 20_memory.md) -/

/-- 43_load_store.md R160 to R166: a load in range delivers its little-endian bytes, sign- or zero-extended, at
any alignment, and changes nothing else (the address wraps by the spec's decision D6, the range is D4). -/
def Obligations.LoadsDeliverTheirBytes : Prop :=
  ∀ (s : State) (rd rs1 : Reg) (imm : Word),
    let a := (effAddr s rs1 imm).toNat
    effAddr s rs1 imm = s.x rs1 + imm ∧
    (a + 1 ≤ s.config.memSize →
      (∃ t, exec (.lb rd rs1 imm) s = .next t ∧
        OnlyRegister rd ((s.mem.byte a).signExtend 32) (s.pc + 4#32) s t) ∧
      (∃ t, exec (.lbu rd rs1 imm) s = .next t ∧
        OnlyRegister rd ((s.mem.byte a).setWidth 32) (s.pc + 4#32) s t)) ∧
    (a + 2 ≤ s.config.memSize →
      (∃ t, exec (.lh rd rs1 imm) s = .next t ∧
        OnlyRegister rd ((s.halfAt a).signExtend 32) (s.pc + 4#32) s t) ∧
      (∃ t, exec (.lhu rd rs1 imm) s = .next t ∧
        OnlyRegister rd ((s.halfAt a).setWidth 32) (s.pc + 4#32) s t)) ∧
    (a + 4 ≤ s.config.memSize →
      ∃ t, exec (.lw rd rs1 imm) s = .next t ∧
        OnlyRegister rd (s.wordAt a) (s.pc + 4#32) s t)

/-- 43_load_store.md R160, R167 to R170, 20_memory.md R44: a store in range writes the low bytes of x[rs2],
least significant first, at the effective address and changes nothing else, for a memory in canonical form
(decisions D4, D6). -/
def Obligations.StoresWriteTheirBytes : Prop :=
  ∀ (s : State) (rs1 rs2 : Reg) (imm : Word), s.mem.wf = true →
    let a := effAddr s rs1 imm
    a = s.x rs1 + imm ∧
    (a.toNat + 1 ≤ s.config.memSize → ∃ t, exec (.sb rs1 rs2 imm) s = .next t ∧
      OnlyBytes a 1 (s.x rs2) (s.pc + 4#32) s t) ∧
    (a.toNat + 2 ≤ s.config.memSize → ∃ t, exec (.sh rs1 rs2 imm) s = .next t ∧
      OnlyBytes a 2 (s.x rs2) (s.pc + 4#32) s t) ∧
    (a.toNat + 4 ≤ s.config.memSize → ∃ t, exec (.sw rs1 rs2 imm) s = .next t ∧
      OnlyBytes a 4 (s.x rs2) (s.pc + 4#32) s t)

/-- i at s takes the fault IllegalMemoryAccess(pc, a, n, k) and nothing but the status changes. -/
abbrev AccessFaults (i : Instr) (s : State) (a : Word) (n : Nat) (k : AccessKind) : Prop :=
  ∃ t, exec i s = .fault (.raised (.illegalMemoryAccess s.pc a n k) t) ∧
    OnlyFaulted (.illegalMemoryAccess s.pc a n k) s t

/-- 43_load_store.md R161, R172: a load out of range faults, also when rd = 0 (decisions D3, D4, D18). -/
def Obligations.LoadsFaultOutOfRange : Prop :=
  ∀ (s : State) (rd rs1 : Reg) (imm : Word),
    let a := s.x rs1 + imm
    (s.config.memSize < a.toNat + 1 → AccessFaults (.lb rd rs1 imm) s a 1 .load ∧
      AccessFaults (.lbu rd rs1 imm) s a 1 .load) ∧
    (s.config.memSize < a.toNat + 2 → AccessFaults (.lh rd rs1 imm) s a 2 .load ∧
      AccessFaults (.lhu rd rs1 imm) s a 2 .load) ∧
    (s.config.memSize < a.toNat + 4 → AccessFaults (.lw rd rs1 imm) s a 4 .load)

/-- 43_load_store.md R167, R172, 20_memory.md R59: a store any byte of which is out of range faults and writes
no byte (decisions D3, D4, D8, D18). -/
def Obligations.StoresFaultOutOfRange : Prop :=
  ∀ (s : State) (rs1 rs2 : Reg) (imm : Word),
    let a := s.x rs1 + imm
    (s.config.memSize < a.toNat + 1 → AccessFaults (.sb rs1 rs2 imm) s a 1 .store) ∧
    (s.config.memSize < a.toNat + 2 → AccessFaults (.sh rs1 rs2 imm) s a 2 .store) ∧
    (s.config.memSize < a.toNat + 4 → AccessFaults (.sw rs1 rs2 imm) s a 4 .store)

/-- 20_memory.md R43: MemRead raises when the access is not in range and otherwise assembles the bytes, b_0 the
least significant. -/
def Obligations.MemReadIsLittleEndian : Prop :=
  ∀ (s : State) (addr : Word),
    let b := fun i => (s.mem.byte (addr.toNat + i)).setWidth 32
    (∀ n, s.config.memSize < addr.toNat + n → memRead s addr n = none) ∧
    (addr.toNat + 1 ≤ s.config.memSize → memRead s addr 1 = some (b 0)) ∧
    (addr.toNat + 2 ≤ s.config.memSize → memRead s addr 2 = some (b 1 <<< 8 ||| b 0)) ∧
    (addr.toNat + 4 ≤ s.config.memSize →
      memRead s addr 4 = some (b 3 <<< 24 ||| b 2 <<< 16 ||| b 1 <<< 8 ||| b 0))

/-- 20_memory.md R44: MemWrite writes nothing when the access is not in range and otherwise puts the low n bytes
of v at addr, addr + 1, ..., keeping every other byte, for a memory in canonical form. -/
def Obligations.MemWriteIsLittleEndian : Prop :=
  ∀ (s : State) (addr v : Word) (n : Nat), n = 1 ∨ n = 2 ∨ n = 4 → s.mem.wf = true →
    (s.config.memSize < addr.toNat + n → memWrite s addr n v = none) ∧
    (addr.toNat + n ≤ s.config.memSize → ∃ t, memWrite s addr n v = some t ∧ t.mem.wf = true ∧
      OnlyBytes addr n v s.pc s t)

/-- 20_memory.md R46 (derived there): after a word is written, narrower reads inside it see its bytes. -/
def Obligations.MixedWidthsSeeBytes : Prop :=
  ∀ (s t : State) (a v : Word), s.mem.wf = true → memWrite s a 4 v = some t →
    memRead t a 1 = some ((v.extractLsb' 0 8).setWidth 32) ∧
    memRead t (a + 1#32) 1 = some ((v.extractLsb' 8 8).setWidth 32) ∧
    memRead t (a + 2#32) 1 = some ((v.extractLsb' 16 8).setWidth 32) ∧
    memRead t (a + 3#32) 1 = some ((v.extractLsb' 24 8).setWidth 32) ∧
    memRead t a 2 = some ((v.extractLsb' 0 16).setWidth 32) ∧
    memRead t (a + 2#32) 2 = some ((v.extractLsb' 16 16).setWidth 32) ∧
    memRead t (a + 1#32) 2 = some ((v.extractLsb' 8 16).setWidth 32) ∧
    memRead t a 4 = some v

/-- 43_load_store.md R173 (its narrow cases are derived there): a store then a load of the same width at the
same address returns the stored value, narrowed and extended, at any alignment. The base register is the same,
so rd may also be it. -/
def Obligations.StoreThenLoadReturnsTheValue : Prop :=
  ∀ (s : State) (rd rs1 rs2 : Reg) (imm : Word), s.mem.wf = true → rd ≠ 0 →
    let a := (s.x rs1 + imm).toNat
    (a + 4 ≤ s.config.memSize → ∃ t u, exec (.sw rs1 rs2 imm) s = .next t ∧
      exec (.lw rd rs1 imm) t = .next u ∧ u.x rd = s.x rs2) ∧
    (a + 2 ≤ s.config.memSize → ∃ t u u', exec (.sh rs1 rs2 imm) s = .next t ∧
      exec (.lhu rd rs1 imm) t = .next u ∧ u.x rd = ((s.x rs2).extractLsb' 0 16).setWidth 32 ∧
      exec (.lh rd rs1 imm) t = .next u' ∧ u'.x rd = ((s.x rs2).extractLsb' 0 16).signExtend 32) ∧
    (a + 1 ≤ s.config.memSize → ∃ t u u', exec (.sb rs1 rs2 imm) s = .next t ∧
      exec (.lbu rd rs1 imm) t = .next u ∧ u.x rd = ((s.x rs2).extractLsb' 0 8).setWidth 32 ∧
      exec (.lb rd rs1 imm) t = .next u' ∧ u'.x rd = ((s.x rs2).extractLsb' 0 8).signExtend 32)

/-- 20_memory.md R53, R56: a store into the word the next step fetches is seen by that fetch; the next step runs
the stored instruction. -/
def Obligations.NextFetchSeesTheStore : Prop :=
  ∀ (s : State) (rs1 rs2 : Reg) (imm : Word) (i : Instr), s.status = .running → s.mem.wf = true →
    s.x rs1 + imm = s.pc + 4#32 → (s.pc + 4#32).toNat + 4 ≤ s.config.memSize →
    decode (s.x rs2) = .ok i →
    ∃ t, exec (.sw rs1 rs2 imm) s = .next t ∧ step t = exec i t

/-! ## Branches, jumps and large immediates -/

/-- 44_branch_jump.md R180 to R186: each branch completes, goes to pc + imm modulo 2^32 when its condition holds
and to pc + 4 when not, and changes nothing else (the sum wraps by the spec's decision D6; which func3 is which
condition is D1). -/
def Obligations.BranchesTakeOrFallThrough : Prop :=
  ∀ (s : State) (rs1 rs2 : Reg) (imm : Word),
    let a := s.x rs1
    let b := s.x rs2
    (∃ t, exec (.beq rs1 rs2 imm) s = .next t ∧
      OnlyControl (if a = b then s.pc + imm else s.pc + 4#32) s.status [] s t) ∧
    (∃ t, exec (.bne rs1 rs2 imm) s = .next t ∧
      OnlyControl (if a ≠ b then s.pc + imm else s.pc + 4#32) s.status [] s t) ∧
    (∃ t, exec (.blt rs1 rs2 imm) s = .next t ∧
      OnlyControl (if a.toInt < b.toInt then s.pc + imm else s.pc + 4#32) s.status [] s t) ∧
    (∃ t, exec (.bge rs1 rs2 imm) s = .next t ∧
      OnlyControl (if b.toInt ≤ a.toInt then s.pc + imm else s.pc + 4#32) s.status [] s t) ∧
    (∃ t, exec (.bltu rs1 rs2 imm) s = .next t ∧
      OnlyControl (if a.toNat < b.toNat then s.pc + imm else s.pc + 4#32) s.status [] s t) ∧
    (∃ t, exec (.bgeu rs1 rs2 imm) s = .next t ∧
      OnlyControl (if b.toNat ≤ a.toNat then s.pc + imm else s.pc + 4#32) s.status [] s t)

/-- 44_branch_jump.md R187: every word with opcode 1101111 is a JAL with the J immediate, even and from -1048576
to 1048574; JAL writes pc + 4 to rd and goes to pc + imm, always. -/
def Obligations.JalLinksAndJumps : Prop :=
  (∀ w : Word, w &&& 0x0000007F#32 = 0x0000006F#32 →
    decode w = .ok (.jal (rdOf w) (immJ w)) ∧
    -1048576 ≤ (immJ w).toInt ∧ (immJ w).toInt ≤ 1048574 ∧ (immJ w).toInt % 2 = 0) ∧
  ∀ (s : State) (rd : Reg) (imm : Word), ∃ t, exec (.jal rd imm) s = .next t ∧
    OnlyRegister rd (BitVec.ofNat 32 (s.pc.toNat + 4)) (BitVec.ofNat 32 (s.pc.toNat + imm.toNat)) s t

/-- 44_branch_jump.md R188, 90_conflicts.md C9: JALR writes pc + 4 to rd and goes to the sum of the old x[rs1] and
imm with bit 0 cleared, also when rd = rs1 (the sum wraps by the spec's decision D6). -/
def Obligations.JalrLinksAndJumps : Prop :=
  ∀ (s : State) (rd rs1 : Reg) (imm : Word), ∃ t, exec (.jalr rd rs1 imm) s = .next t ∧
    OnlyRegister rd (s.pc + 4#32) (BitVec.ofNat 32 ((s.x rs1 + imm).toNat / 2 * 2)) s t

/-- 45_large_immediate.md R200: every word with opcode 0110111 is a LUI of w & 0xFFFFF000, whose low 12 bits are
0; LUI writes it to rd; LUI of ((c + 0x800) >> 12) & 0xFFFFF then ADDI of the sign-extended low 12 bits builds
any 32-bit constant c. -/
def Obligations.LuiLoadsTheUpperBits : Prop :=
  (∀ w : Word, w &&& 0x0000007F#32 = 0x00000037#32 →
    decode w = .ok (.lui (rdOf w) (w &&& 0xFFFFF000#32))) ∧
  (∀ (s : State) (rd : Reg) (imm : Word), ∃ t, exec (.lui rd imm) s = .next t ∧
    OnlyRegister rd imm (s.pc + 4#32) s t) ∧
  ∀ (s : State) (rd : Reg) (c : Word), ∃ t u,
    exec (.lui rd ((((c + 0x800#32) >>> 12) &&& 0xFFFFF#32) <<< 12)) s = .next t ∧
    exec (.addi rd rd ((c.extractLsb' 0 12).signExtend 32)) t = .next u ∧
    OnlyRegister rd c (s.pc + 8#32) s u

/-- 45_large_immediate.md R201: AUIPC writes its own address plus the immediate modulo 2^32 (the wrap is the
spec's decision D6); every word with opcode 0010111 is one. -/
def Obligations.AuipcAddsThePc : Prop :=
  (∀ w : Word, w &&& 0x0000007F#32 = 0x00000017#32 →
    decode w = .ok (.auipc (rdOf w) (w &&& 0xFFFFF000#32))) ∧
  ∀ (s : State) (rd : Reg) (imm : Word), ∃ t, exec (.auipc rd imm) s = .next t ∧
    OnlyRegister rd (BitVec.ofNat 32 (s.pc.toNat + imm.toNat)) (s.pc + 4#32) s t

/-! ## System calls (46_system.md) -/

/-- 46_system.md R208, R212 (decisions D14, D16): call 64 appends one event, the stream of x[10] unchecked and
the x[12] bytes at x[11] in order, goes on at pc + 4 and changes nothing else; a length of 0 reads nothing
whatever x[11] is. -/
def Obligations.EcallPrints : Prop :=
  ∀ s : State, s.x 17 = 64#32 →
    ((s.x 12).toNat = 0 ∨ (s.x 11).toNat + (s.x 12).toNat ≤ s.config.memSize) →
    ∃ t e, exec .ecall s = .next t ∧ OnlyControl (s.pc + 4#32) s.status [e] s t ∧
      e.stream = s.x 10 ∧ e.bytes.length = (s.x 12).toNat ∧
      ∀ k < (s.x 12).toNat, e.bytes[k]? = some (s.mem.byte ((s.x 11).toNat + k))

/-- 46_system.md R208 (decision D16): a buffer that is not all in range faults and appends nothing. -/
def Obligations.EcallPrintFaultsOutOfRange : Prop :=
  ∀ s : State, s.x 17 = 64#32 → (s.x 12).toNat ≠ 0 →
    s.config.memSize < (s.x 11).toNat + (s.x 12).toNat →
    AccessFaults .ecall s (s.x 11) (s.x 12).toNat .syscall

/-- 46_system.md R209, R210 (decision D15): exit keeps all 32 bits of x[10] as the code, halt ends the run; the
pc stays at the ECALL and nothing else changes. -/
def Obligations.EcallExitAndHaltEndTheRun : Prop :=
  ∀ s : State,
    (s.x 17 = 93#32 → ∃ t, exec .ecall s = .next t ∧ OnlyControl s.pc (.exited (s.x 10)) [] s t) ∧
    (s.x 17 = 0#32 → ∃ t, exec .ecall s = .next t ∧ OnlyControl s.pc .halted [] s t)

/-- 46_system.md R211 (decision D13): any other call number does nothing; all 32 bits of x[17] are compared. -/
def Obligations.EcallOtherwiseDoesNothing : Prop :=
  ∀ s : State, s.x 17 ∉ [0#32, 64#32, 93#32] →
    ∃ t, exec .ecall s = .next t ∧ OnlyControl (s.pc + 4#32) s.status [] s t

/-- 46_system.md R206 (decision D12): EBREAK is a no-op. -/
def Obligations.EbreakDoesNothing : Prop :=
  ∀ s : State, ∃ t, exec .ebreak s = .next t ∧ OnlyControl (s.pc + 4#32) s.status [] s t

/-! ## Reset and boot -/

/-- 10_state.md R38, 70_reset_and_hazards.md R250 (decisions D5, D20): reset from any state, and a boot with any
parameters and any MEM_INIT, leave every register 0, pc = RESET_PC, Running, the trace empty, Memory as it was;
`State.reset` is one such boot, with RESET_PC = 0. -/
def Obligations.ResetLeavesTheSpecsState : Prop :=
  (∀ (s : State) (a : Nat) (r : Reg), s.coreReset.x r = 0#32 ∧ s.coreReset.pc = s.config.resetPc ∧
    s.coreReset.status = .running ∧ s.coreReset.trace = [] ∧
    s.coreReset.mem.byte a = s.mem.byte a ∧ s.coreReset.config = s.config) ∧
  (∀ (k : Config) (m : Memory), (State.boot k m).coreReset = State.boot k m ∧
    (State.boot k m).mem = m ∧ (State.boot k m).config = k) ∧
  (∃ k m, State.reset = State.boot k m ∧ k.resetPc = 0#32)

/-- 70_reset_and_hazards.md R251 (decision D20): RESET_PC is not checked; one outside Memory faults at the first
fetch. -/
def Obligations.FirstFetchOutsideMemoryFaults : Prop :=
  ∀ (k : Config) (m : Memory), k.memSize < k.resetPc.toNat + 4 →
    ∃ t, step (State.boot k m) =
        .fault (.raised (.illegalMemoryAccess k.resetPc k.resetPc 4 .fetch) t) ∧
      OnlyFaulted (.illegalMemoryAccess k.resetPc k.resetPc 4 .fetch) (State.boot k m) t

/-- 10_state.md R39 (derived there): an ECALL that is the first instruction after reset is the halt call. -/
def Obligations.EcallRightAfterResetHalts : Prop :=
  ∀ (k : Config) (m : Memory), k.resetPc.toNat + 4 ≤ k.memSize →
    (State.boot k m).wordAt k.resetPc.toNat = 0x00000073#32 →
    ∃ t, step (State.boot k m) = .next t ∧ OnlyControl k.resetPc .halted [] (State.boot k m) t

/-- 40_decoder_and_cycle.md R101: the source's scenario for the whole cycle. The word of `ADD x3, x1, x2` is
0x002081B3 and the word printed in the source is `ADD x0, x0, x0` (90_conflicts.md C1); that either is an ADD rests
on the func values of the spec's decision D1 (log 9). -/
def Obligations.SourceAddScenario : Prop :=
  decode 0x002081B3#32 = .ok (.add 3 1 2) ∧
  (∀ s : State, s.status = .running → s.pc.toNat + 4 ≤ s.config.memSize →
    s.wordAt s.pc.toNat = 0x002081B3#32 → s.x 1 = 5#32 → s.x 2 = 7#32 →
    ∃ t, step s = .next t ∧ t.x 3 = 12#32 ∧ t.pc = s.pc + 4#32) ∧
  decode 0x00000033#32 = .ok (.add 0 0 0)

/-! ## Expansions -/

/-- 30_encoding.md R84 (general knowledge there, G17): every expansion of LI, run from any state, leaves the
constant in rd and changes nothing else but the pc. -/
def Obligations.LoadImmediateBuildsEveryConstant : Prop :=
  ∀ (s : State) (rd : Reg) (c : Word), ∃ t,
    execAll (Pseudo.li rd c).expand s = .next t ∧
    OnlyRegister rd c (s.pc + BitVec.ofNat 32 (4 * (Pseudo.li rd c).expand.length)) s t ∧
    ∀ i ∈ (Pseudo.li rd c).expand, i.wf = true

/-- 30_encoding.md R84 (general knowledge there, G17): CALL reaches the offset from its first instruction with
bit 0 cleared and leaves the address after it in x1; LA leaves the address in rd. -/
def Obligations.CallAndLoadAddressReachTheOffset : Prop :=
  ∀ (s : State) (rd : Reg) (off : Word),
    (∃ t, execAll (Pseudo.call off).expand s = .next t ∧
      OnlyRegister 1 (s.pc + 8#32) ((s.pc + off) &&& 0xFFFFFFFE#32) s t) ∧
    (rd ≠ 0 → ∃ t, execAll (Pseudo.la rd off).expand s = .next t ∧
      OnlyRegister rd (s.pc + off) (s.pc + 8#32) s t)
end

