-- ==== Sys2Proof/Laws/State.lean ====
section
/-! SUPPORT. One lemma per field per update of State, so that no proof unfolds a record update; what a register
reads after each update. -/

namespace Sys2Proof.Machine

variable (s : State) (r q : Reg) (v : Word) (n : NextPc) (c : Cause) (e : PrintEvent) (st : Status)

/-! ## setX -/

@[simp] theorem setX_pc : (s.setX r v).pc = s.pc := by unfold State.setX; split <;> rfl
@[simp] theorem setX_mem : (s.setX r v).mem = s.mem := by unfold State.setX; split <;> rfl
@[simp] theorem setX_status : (s.setX r v).status = s.status := by unfold State.setX; split <;> rfl
@[simp] theorem setX_trace : (s.setX r v).trace = s.trace := by unfold State.setX; split <;> rfl
@[simp] theorem setX_config : (s.setX r v).config = s.config := by unfold State.setX; split <;> rfl

/-- Register 0 reads as zero in every state (10_state.md R21). -/
@[simp] theorem x_zero : s.x 0 = 0#32 := rfl

/-- A write to register 0 changes nothing (10_state.md R21). -/
@[simp] theorem setX_zero : s.setX 0 v = s := rfl

/-- What a register reads after a write. -/
theorem x_setX : (s.setX r v).x q = if q = r ∧ r ≠ 0 then v else s.x q := by
  unfold State.setX State.x
  by_cases h0 : r = 0
  · simp [h0]
  · by_cases hq : q = r
    · subst hq; simp [h0]
    · by_cases hq0 : q = 0
      · subst hq0; simp [h0, hq]
      · simp only [h0, hq0, hq, if_false, false_and]
        exact Vector.getElem_set_ne r.isLt q.isLt (fun h => hq (Fin.ext h.symm))

@[simp] theorem x_setX_self (h : r ≠ 0) : (s.setX r v).x r = v := by simp [x_setX, h]
@[simp] theorem x_setX_ne (h : q ≠ r) : (s.setX r v).x q = s.x q := by simp [x_setX, h]

/-! ## Updates that leave the registers alone -/

@[simp] theorem x_withPc (p : Word) : ({ s with pc := p } : State).x q = s.x q := rfl
@[simp] theorem x_withMem (m : Memory) : ({ s with mem := m } : State).x q = s.x q := rfl
@[simp] theorem x_withStatus : ({ s with status := st } : State).x q = s.x q := rfl
@[simp] theorem x_withTrace (t : List PrintEvent) : ({ s with trace := t } : State).x q = s.x q := rfl

/-! ## advance and retire -/

@[simp] theorem x_advance : (s.advance n).x q = s.x q := rfl
@[simp] theorem advance_regs : (s.advance n).regs = s.regs := rfl
@[simp] theorem advance_pc : (s.advance n).pc = n.target s.pc := rfl
@[simp] theorem advance_mem : (s.advance n).mem = s.mem := rfl
@[simp] theorem advance_status : (s.advance n).status = s.status := rfl
@[simp] theorem advance_trace : (s.advance n).trace = s.trace := rfl
@[simp] theorem advance_config : (s.advance n).config = s.config := rfl
@[simp] theorem target_sequential (p : Word) : NextPc.sequential.target p = p + 4#32 := rfl
@[simp] theorem target_explicit (p t : Word) : (NextPc.explicit t).target p = t := rfl

@[simp] theorem retire_pc : (s.retire r v n).pc = n.target s.pc := by simp [State.retire]
@[simp] theorem retire_mem : (s.retire r v n).mem = s.mem := by simp [State.retire]
@[simp] theorem retire_status : (s.retire r v n).status = s.status := by simp [State.retire]
@[simp] theorem retire_trace : (s.retire r v n).trace = s.trace := by simp [State.retire]
@[simp] theorem retire_config : (s.retire r v n).config = s.config := by simp [State.retire]

/-- What a register reads after Writeback and AdvancePC. -/
theorem x_retire : (s.retire r v n).x q = if q = r ∧ r ≠ 0 then v else s.x q := by
  simp [State.retire, x_setX]

/-! ## enterFault, print, stop -/

@[simp] theorem x_enterFault : (s.enterFault c).x q = s.x q := rfl
@[simp] theorem enterFault_regs : (s.enterFault c).regs = s.regs := rfl
@[simp] theorem enterFault_pc : (s.enterFault c).pc = s.pc := rfl
@[simp] theorem enterFault_mem : (s.enterFault c).mem = s.mem := rfl
@[simp] theorem enterFault_status : (s.enterFault c).status = .faulted c := rfl
@[simp] theorem enterFault_trace : (s.enterFault c).trace = s.trace := rfl
@[simp] theorem enterFault_config : (s.enterFault c).config = s.config := rfl

@[simp] theorem x_print : (s.print e).x q = s.x q := rfl
@[simp] theorem print_regs : (s.print e).regs = s.regs := rfl
@[simp] theorem print_pc : (s.print e).pc = s.pc := rfl
@[simp] theorem print_mem : (s.print e).mem = s.mem := rfl
@[simp] theorem print_status : (s.print e).status = s.status := rfl
@[simp] theorem print_trace : (s.print e).trace = s.trace ++ [e] := rfl
@[simp] theorem print_config : (s.print e).config = s.config := rfl

@[simp] theorem x_stop : (s.stop st).x q = s.x q := rfl
@[simp] theorem stop_regs : (s.stop st).regs = s.regs := rfl
@[simp] theorem stop_pc : (s.stop st).pc = s.pc := rfl
@[simp] theorem stop_mem : (s.stop st).mem = s.mem := rfl
@[simp] theorem stop_status : (s.stop st).status = st := rfl
@[simp] theorem stop_trace : (s.stop st).trace = s.trace := rfl
@[simp] theorem stop_config : (s.stop st).config = s.config := rfl

/-! ## Reset -/

@[simp] theorem coreReset_pc : s.coreReset.pc = s.config.resetPc := rfl
@[simp] theorem coreReset_mem : s.coreReset.mem = s.mem := rfl
@[simp] theorem coreReset_status : s.coreReset.status = .running := rfl
@[simp] theorem coreReset_trace : s.coreReset.trace = [] := rfl
@[simp] theorem coreReset_config : s.coreReset.config = s.config := rfl

/-- Every register reads zero in a state whose register file is all zeros. -/
theorem x_of_replicate (h : s.regs = Vector.replicate 32 0#32) : s.x q = 0#32 := by
  unfold State.x; split <;> simp [h]

/-! ## MEM_SIZE -/

/-- 1 <= MEM_SIZE <= 2^32 in every state (00_scope.md R5). -/
theorem memSize_bounds (k : Config) : 1 ≤ k.memSize ∧ k.memSize ≤ 2 ^ 32 := by
  have := k.memLast.isLt
  unfold Config.memSize; omega

/-- A MEM_SIZE is accepted exactly when it is from 1 to 2^32, and then it is the one given. -/
theorem ofMemSize_spec (p : Word) (m : Nat) :
    (∀ k, Config.ofMemSize p m = some k → k.memSize = m ∧ k.resetPc = p) ∧
      (Config.ofMemSize p m = none ↔ m = 0 ∨ 2 ^ 32 < m) := by
  unfold Config.ofMemSize
  constructor
  · intro k hk
    split at hk
    · cases hk; simp [Config.memSize]; omega
    · cases hk
  · split <;> simp <;> omega

@[simp] theorem inRange_iff (a : Word) (k : Nat) :
    s.inRange a k = true ↔ a.toNat + k ≤ s.config.memSize := by simp [State.inRange]

@[simp] theorem inRange_false_iff (a : Word) (k : Nat) :
    s.inRange a k = false ↔ s.config.memSize < a.toNat + k := by simp [State.inRange]

end Sys2Proof.Machine
end

