-- ==== Sys2Proof/Laws/Memory.lean ====
section
/-! SUPPORT. The laws of memory: read after write, what a write leaves alone, and that every memory operation
keeps the canonical form. -/

namespace Sys2Proof.Machine

@[simp] theorem byte_nil (a : Nat) : Memory.byte [] a = memUnlisted := rfl
@[simp] theorem wfFrom_nil (lo : Nat) : Memory.wfFrom lo [] = true := rfl

theorem byte_cons (k : Nat) (b : Byte) (m : Memory) (a : Nat) :
    Memory.byte ((k, b) :: m) a = if k = a then b else Memory.byte m a := rfl

theorem wfFrom_cons (lo k : Nat) (b : Byte) (m : Memory) :
    Memory.wfFrom lo ((k, b) :: m) = true ↔
      lo ≤ k ∧ b ≠ memUnlisted ∧ Memory.wfFrom (k + 1) m = true := by
  simp [Memory.wfFrom, and_assoc]

/-- Below the first address a canonical memory lists nothing. -/
theorem byte_of_lt {m : Memory} : ∀ {lo a : Nat}, Memory.wfFrom lo m = true → a < lo →
    m.byte a = memUnlisted := by
  induction m with
  | nil => intros; rfl
  | cons c m ih =>
    intro lo a h ha
    obtain ⟨k, b⟩ := c
    obtain ⟨h1, -, h3⟩ := (wfFrom_cons ..).1 h
    rw [byte_cons, if_neg (by omega)]
    exact ih h3 (by omega)

theorem wfFrom_mono {m : Memory} {lo lo' : Nat} (h : Memory.wfFrom lo m = true) (hl : lo' ≤ lo) :
    Memory.wfFrom lo' m = true := by
  cases m with
  | nil => rfl
  | cons c m =>
    obtain ⟨k, b⟩ := c
    rw [wfFrom_cons] at h ⊢
    exact ⟨by omega, h.2⟩

/-- A write leaves every other address alone, in every memory. -/
theorem byte_setByte_ne {a a' : Nat} (v : Byte) (h : a' ≠ a) :
    ∀ m : Memory, (m.setByte a v).byte a' = m.byte a' := by
  intro m
  induction m with
  | nil => unfold Memory.setByte; split <;> simp [byte_cons, Ne.symm h]
  | cons c m ih =>
    obtain ⟨k, b⟩ := c
    unfold Memory.setByte
    split
    · split <;> simp [byte_cons, Ne.symm h]
    · split
      · subst_vars
        split <;> simp [byte_cons, Ne.symm h]
      · simp only [byte_cons, ih]

/-- Read after write. -/
theorem byte_setByte_self (a : Nat) (v : Byte) : ∀ {m : Memory} {lo : Nat}, Memory.wfFrom lo m = true →
    (m.setByte a v).byte a = v := by
  intro m
  induction m with
  | nil => intro lo _; unfold Memory.setByte; split <;> simp_all [byte_cons]
  | cons c m ih =>
    intro lo h
    obtain ⟨k, b⟩ := c
    obtain ⟨h1, h2, h3⟩ := (wfFrom_cons ..).1 h
    unfold Memory.setByte
    split
    · split
      · subst_vars
        rw [byte_cons, if_neg (by omega)]
        exact byte_of_lt h3 (by omega)
      · simp [byte_cons]
    · split
      · split
        · subst_vars; exact byte_of_lt h3 (by omega)
        · simp [byte_cons]
      · rw [byte_cons, if_neg (by omega)]; exact ih h3

/-- A byte write keeps the canonical form. -/
theorem setByte_wfFrom (a : Nat) (v : Byte) : ∀ {m : Memory} {lo : Nat}, lo ≤ a →
    Memory.wfFrom lo m = true → Memory.wfFrom lo (m.setByte a v) = true := by
  intro m
  induction m with
  | nil => intro lo hl _; unfold Memory.setByte; split <;> simp_all [wfFrom_cons]
  | cons c m ih =>
    intro lo hl h
    obtain ⟨k, b⟩ := c
    obtain ⟨h1, h2, h3⟩ := (wfFrom_cons ..).1 h
    unfold Memory.setByte
    split
    · split
      · exact h
      · simp only [wfFrom_cons]; exact ⟨hl, by assumption, by omega, h2, h3⟩
    · split
      · split
        · exact wfFrom_mono h3 (by omega)
        · simp only [wfFrom_cons]; exact ⟨hl, by assumption, by subst_vars; exact h3⟩
      · simp only [wfFrom_cons]; exact ⟨h1, h2, ih (by omega) h3⟩

theorem setByte_wf {m : Memory} (a : Nat) (v : Byte) (h : m.wf = true) : (m.setByte a v).wf = true :=
  setByte_wfFrom a v (Nat.zero_le a) h

/-- A byte write lists no address but its own and those listed before. -/
theorem mem_setByte {a : Nat} {v : Byte} {c : Host.Cell} : ∀ {m : Memory}, c ∈ m.setByte a v →
    c ∈ m ∨ c.1 = a := by
  intro m
  induction m with
  | nil => unfold Memory.setByte; split <;> simp +contextual
  | cons d m ih =>
    obtain ⟨k, b⟩ := d
    unfold Memory.setByte
    intro h
    split at h
    · split at h
      · exact .inl h
      · rcases List.mem_cons.1 h with rfl | h
        · exact .inr rfl
        · exact .inl h
    · split at h
      · split at h
        · exact .inl (List.mem_cons_of_mem _ h)
        · rcases List.mem_cons.1 h with rfl | h
          · exact .inr rfl
          · exact .inl (List.mem_cons_of_mem _ h)
      · rcases List.mem_cons.1 h with rfl | h
        · exact .inl (List.mem_cons_self ..)
        · exact (ih h).imp (List.mem_cons_of_mem _) id

/-! ## Runs of bytes -/

theorem setBytes_wf (bs : List Byte) : ∀ {m : Memory} (a : Nat), m.wf = true →
    (m.setBytes a bs).wf = true := by
  induction bs with
  | nil => intro m a h; exact h
  | cons b bs ih => intro m a h; exact ih (a + 1) (setByte_wf a b h)

theorem mem_setBytes {c : Host.Cell} (bs : List Byte) : ∀ {m : Memory} {a : Nat},
    c ∈ m.setBytes a bs → c ∈ m ∨ (a ≤ c.1 ∧ c.1 < a + bs.length) := by
  induction bs with
  | nil => intro m a h; exact .inl h
  | cons b bs ih =>
    intro m a h
    rcases ih h with h | h
    · rcases mem_setByte h with h | h
      · exact .inl h
      · exact .inr (by simp; omega)
    · exact .inr (by simp; omega)

/-- A run of byte writes leaves every address outside it alone, in every memory. -/
theorem byte_setBytes_outside (bs : List Byte) : ∀ (m : Memory) (a a' : Nat),
    a' < a ∨ a + bs.length ≤ a' → (m.setBytes a bs).byte a' = m.byte a' := by
  induction bs with
  | nil => intros; rfl
  | cons b bs ih =>
    intro m a a' h
    simp only [List.length_cons] at h
    show ((m.setByte a b).setBytes (a + 1) bs).byte a' = _
    rw [ih _ _ _ (by omega), byte_setByte_ne _ (by omega)]

/-- Inside the run each address holds its byte. -/
theorem byte_setBytes_inside (bs : List Byte) : ∀ {m : Memory} (a k : Nat) (h : k < bs.length),
    m.wf = true → (m.setBytes a bs).byte (a + k) = bs[k] := by
  induction bs with
  | nil => intro m a k h; simp at h
  | cons b bs ih =>
    intro m a k h hm
    show ((m.setByte a b).setBytes (a + 1) bs).byte (a + k) = _
    cases k with
    | zero =>
      rw [byte_setBytes_outside _ _ _ _ (by omega)]
      exact byte_setByte_self a b hm
    | succ k =>
      have := ih (m := m.setByte a b) (a + 1) k (by simpa using h) (setByte_wf a b hm)
      simpa [Nat.add_comm, Nat.add_left_comm] using this

@[simp] theorem bytesOfWord_length : ∀ (n : Nat) (v : Word), (bytesOfWord n v).length = n
  | 0, _ => rfl
  | n + 1, v => by simp [bytesOfWord, bytesOfWord_length n]

/-- The k-th byte of a value. -/
theorem bytesOfWord_getElem : ∀ (n : Nat) (v : Word) (k : Nat) (h : k < (bytesOfWord n v).length),
    (bytesOfWord n v)[k] = v.extractLsb' (8 * k) 8
  | 0, _, _, h => by simp at h
  | n + 1, v, 0, _ => by
    simp only [bytesOfWord, List.getElem_cons_zero, Nat.mul_zero]
    exact BitVec.setWidth_eq_extractLsb' (by omega)
  | n + 1, v, k + 1, h => by
    simp only [bytesOfWord, List.getElem_cons_succ]
    rw [bytesOfWord_getElem n (v >>> 8) k (by simpa using h)]
    apply BitVec.eq_of_getLsbD_eq
    intro i hi
    simp only [BitVec.getLsbD_extractLsb', BitVec.getLsbD_ushiftRight]
    congr 2; omega

@[simp] theorem bytes_length (m : Memory) : ∀ (n a : Nat), (m.bytes a n).length = n
  | 0, _ => rfl
  | n + 1, a => by simp [Memory.bytes, bytes_length m n]

/-- The k-th byte of a run. -/
theorem bytes_getElem (m : Memory) : ∀ (n a k : Nat) (h : k < (m.bytes a n).length),
    (m.bytes a n)[k] = m.byte (a + k)
  | 0, _, _, h => by simp at h
  | n + 1, a, 0, _ => by simp [Memory.bytes]
  | n + 1, a, k + 1, h => by
    simp only [Memory.bytes, List.getElem_cons_succ]
    rw [bytes_getElem m n (a + 1) k (by simpa using h)]
    congr 1; omega

/-- The byte a byte list puts at each place of its little-endian value. -/
theorem wordOfBytes_byte : ∀ (bs : List Byte) (k : Nat) (_ : bs.length ≤ 4) (h : k < bs.length),
    (wordOfBytes bs).extractLsb' (8 * k) 8 = bs[k]
  | [], _, _, h => by simp at h
  | b :: bs, 0, _, _ => by
    apply BitVec.eq_of_getLsbD_eq
    intro i hi
    simp [wordOfBytes, BitVec.getLsbD_setWidth, hi]
    omega
  | b :: bs, k + 1, hl, h => by
    have ih := wordOfBytes_byte bs k (by simp at hl; omega) (by simpa using h)
    simp only [List.getElem_cons_succ, ← ih]
    simp only [List.length_cons] at hl h
    apply BitVec.eq_of_getLsbD_eq
    intro i hi
    simp only [wordOfBytes, BitVec.getLsbD_extractLsb', BitVec.getLsbD_or, BitVec.getLsbD_shiftLeft,
      BitVec.getLsbD_setWidth]
    have h1 : b.getLsbD (8 * (k + 1) + i) = false := BitVec.getLsbD_of_ge _ _ (by omega)
    have h2 : 8 * (k + 1) + i - 8 = 8 * k + i := by omega
    have h3 : 8 * (k + 1) + i < 32 := by omega
    have h4 : ¬ 8 * (k + 1) + i < 8 := by omega
    simp [h1, h2, h3, h4, hi]

/-- Two bytes as a value. -/
theorem wordOfBytes_two (b0 b1 : Byte) : wordOfBytes [b0, b1] = (b1 ++ b0).setWidth 32 := by
  have z (b : Byte) (j : Nat) (h : 8 ≤ j) : b.getLsbD j = false := BitVec.getLsbD_of_ge _ _ h
  apply BitVec.eq_of_getLsbD_eq
  intro i hi
  simp only [wordOfBytes, BitVec.getLsbD_or, BitVec.getLsbD_shiftLeft, BitVec.getLsbD_setWidth,
    BitVec.getLsbD_append]
  by_cases h : i < 8
  · simp [h, hi]
  · simp [h, hi, z b0 i (by omega), show i - 8 < 32 by omega]

/-- Four bytes as a value. -/
theorem wordOfBytes_four (b0 b1 b2 b3 : Byte) :
    wordOfBytes [b0, b1, b2, b3] = b3 ++ b2 ++ b1 ++ b0 := by
  have z (b : Byte) (j : Nat) (h : 8 ≤ j) : b.getLsbD j = false := BitVec.getLsbD_of_ge _ _ h
  apply BitVec.eq_of_getLsbD_eq
  intro i hi
  simp only [wordOfBytes, BitVec.getLsbD_or, BitVec.getLsbD_shiftLeft, BitVec.getLsbD_setWidth,
    BitVec.getLsbD_append]
  by_cases h : i < 8
  · simp [h, hi]
  · rw [z b0 i (by omega)]
    by_cases h2 : i - 8 < 8
    · simp [h, hi, h2, show i - 8 < 32 by omega]
    · rw [z b1 _ (by omega)]
      by_cases h3 : i - 8 - 8 < 8
      · simp [h, hi, h2, h3, show i - 8 < 32 by omega, show i - 8 - 8 < 32 by omega]
      · rw [z b2 _ (by omega)]
        simp [h, hi, h2, h3, show i - 8 < 32 by omega, show i - 8 - 8 < 32 by omega,
          show i - 8 - 8 - 8 < 32 by omega]

/-- The four bytes at an address are the word there. -/
theorem wordOfBytes_wordAt (s : State) (a : Nat) : wordOfBytes (s.mem.bytes a 4) = s.wordAt a :=
  wordOfBytes_four ..

/-- The two bytes at an address are the half there. -/
theorem wordOfBytes_halfAt (s : State) (a : Nat) : wordOfBytes (s.mem.bytes a 2) = (s.halfAt a).setWidth 32 :=
  wordOfBytes_two ..

/-- The one byte at an address is the byte there. -/
theorem wordOfBytes_byteAt (s : State) (a : Nat) :
    wordOfBytes (s.mem.bytes a 1) = (s.mem.byte a).setWidth 32 := by
  simp [wordOfBytes, Memory.bytes]

/-! ## What a load delivers (43_load_store.md R161) -/

theorem loadValue_byte_signed (s : State) (a : Nat) :
    loadValue 1 true (wordOfBytes (s.mem.bytes a 1)) = (s.mem.byte a).signExtend 32 := by
  rw [wordOfBytes_byteAt]; simp [loadValue, sext]
theorem loadValue_byte_unsigned (s : State) (a : Nat) :
    loadValue 1 false (wordOfBytes (s.mem.bytes a 1)) = (s.mem.byte a).setWidth 32 := by
  rw [wordOfBytes_byteAt]; simp [loadValue, zext]
theorem loadValue_half_signed (s : State) (a : Nat) :
    loadValue 2 true (wordOfBytes (s.mem.bytes a 2)) = (s.halfAt a).signExtend 32 := by
  rw [wordOfBytes_halfAt]; simp [loadValue, sext]
theorem loadValue_half_unsigned (s : State) (a : Nat) :
    loadValue 2 false (wordOfBytes (s.mem.bytes a 2)) = (s.halfAt a).setWidth 32 := by
  rw [wordOfBytes_halfAt]; simp [loadValue, zext]
theorem loadValue_word (s : State) (a : Nat) :
    loadValue 4 true (wordOfBytes (s.mem.bytes a 4)) = s.wordAt a := by
  rw [wordOfBytes_wordAt]; simp [loadValue, sext]

/-! ## MemRead and MemWrite -/

/-- MemRead: none exactly when the access is not in range, else the little-endian value of its bytes. -/
theorem memRead_eq (s : State) (a : Word) (n : Nat) :
    memRead s a n = if a.toNat + n ≤ s.config.memSize then some (wordOfBytes (s.mem.bytes a.toNat n))
      else none := by
  unfold memRead; simp only [inRange_iff]

/-- MemWrite: none exactly when the access is not in range, else only Memory differs. -/
theorem memWrite_eq (s : State) (a : Word) (n : Nat) (v : Word) :
    memWrite s a n v = if a.toNat + n ≤ s.config.memSize then
        some { s with mem := s.mem.setBytes a.toNat (bytesOfWord n v) }
      else none := by
  unfold memWrite; simp only [inRange_iff]

/-- MemWrite keeps the canonical form. -/
theorem memWrite_wf {s t : State} {a : Word} {n : Nat} {v : Word} (hm : s.mem.wf = true)
    (h : memWrite s a n v = some t) : t.mem.wf = true := by
  rw [memWrite_eq] at h
  split at h
  · cases h; exact setBytes_wf _ _ hm
  · cases h

/-- Placing a word where the next step fetches keeps the canonical form. -/
theorem placeWord_wf {s : State} (w : Word) (hm : s.mem.wf = true) : (placeWord s w).mem.wf = true := by
  unfold placeWord
  split
  · exact setBytes_wf _ _ hm
  · exact hm

/-- Reset memory is in canonical form. -/
theorem reset_mem_wf : State.reset.mem.wf = true := rfl

end Sys2Proof.Machine
end

