-- ==== Sys2Proof/Laws/Exec.lean ====
section
/-! SUPPORT. For each shared operation one lemma that says everything it can do, then the two inversion lemmas
every whole-machine rule is derived from: `exec_does` and `cycle_cases`. -/

namespace Sys2Proof.Machine

/-! ## What the ends of a cycle change -/

theorem retire_onlyRegister (s : State) (rd : Reg) (v : Word) (n : NextPc) :
    OnlyRegister rd v (n.target s.pc) s (s.retire rd v n) where
  written h := by simp [x_retire, h]
  zero := rfl
  kept r h := by simp [x_retire, h]
  pc := by simp
  bytes a := by simp
  status := by simp
  trace := by simp
  config := by simp

/-- The same at pc + 4. -/
theorem retire_sequential (s : State) (rd : Reg) (v : Word) :
    OnlyRegister rd v (s.pc + 4#32) s (s.retire rd v .sequential) :=
  retire_onlyRegister s rd v .sequential

theorem advance_onlyControl (s : State) (n : NextPc) :
    OnlyControl (n.target s.pc) s.status [] s (s.advance n) where
  kept r := by simp
  pc := by simp
  bytes a := by simp
  status := by simp
  trace := by simp
  config := by simp

theorem print_onlyControl (s : State) (e : PrintEvent) :
    OnlyControl (s.pc + 4#32) s.status [e] s ((s.print e).advance .sequential) where
  kept r := by simp
  pc := by simp
  bytes a := by simp
  status := by simp
  trace := by simp
  config := by simp

theorem stop_onlyControl (s : State) (st : Status) : OnlyControl s.pc st [] s (s.stop st) where
  kept r := by simp
  pc := by simp
  bytes a := by simp
  status := by simp
  trace := by simp
  config := by simp

theorem enterFault_onlyFaulted (s : State) (c : Cause) : OnlyFaulted c s (s.enterFault c) where
  kept r := by simp
  pc := by simp
  bytes a := by simp
  status := by simp
  trace := by simp
  config := by simp

theorem setBytes_onlyBytes (s : State) (a : Word) (n : Nat) (v : Word) (h : s.mem.wf = true) :
    OnlyBytes a n v (s.pc + 4#32) s
      (({ s with mem := s.mem.setBytes a.toNat (bytesOfWord n v) } : State).advance .sequential) where
  kept r := by simp
  pc := by simp
  stored k hk := by
    rw [advance_mem, byte_setBytes_inside _ _ _ (by simpa using hk) h, bytesOfWord_getElem]
  bytes b hb := byte_setBytes_outside _ _ _ _ (by simpa using hb)
  status := by simp
  trace := by simp
  config := by simp

/-! ## The shared operations of the families -/

/-- An ALU or multiply/divide instruction always answers a next state. -/
theorem aluOp_eq (f : Word → Word → Word) (rd rs1 : Reg) (b : Operand) (s : State) :
    aluOp f rd rs1 b s = .next (s.retire rd (f (s.x rs1) (b.value s)) .sequential) := rfl

/-- A load delivers its value in range and faults out of range. -/
theorem load_eq (n : Nat) (signed : Bool) (rd rs1 : Reg) (imm : Word) (s : State) :
    load n signed rd rs1 imm s =
      if (effAddr s rs1 imm).toNat + n ≤ s.config.memSize then
        .next (s.retire rd
          (loadValue n signed (wordOfBytes (s.mem.bytes (effAddr s rs1 imm).toNat n))) .sequential)
      else raise (.illegalMemoryAccess s.pc (effAddr s rs1 imm) n .load) s := by
  unfold load
  rw [memRead_eq]
  by_cases h : (effAddr s rs1 imm).toNat + n ≤ s.config.memSize
  · rw [if_pos h, if_pos h]
  · rw [if_neg h, if_neg h]

/-- A store writes its bytes in range and faults, writing none, out of range. -/
theorem store_eq (n : Nat) (rs1 rs2 : Reg) (imm : Word) (s : State) :
    store n rs1 rs2 imm s =
      if (effAddr s rs1 imm).toNat + n ≤ s.config.memSize then
        .next (({ s with mem := s.mem.setBytes (effAddr s rs1 imm).toNat (bytesOfWord n (s.x rs2)) }
          : State).advance .sequential)
      else raise (.illegalMemoryAccess s.pc (effAddr s rs1 imm) n .store) s := by
  unfold store
  rw [memWrite_eq]
  by_cases h : (effAddr s rs1 imm).toNat + n ≤ s.config.memSize
  · rw [if_pos h, if_pos h]
  · rw [if_neg h, if_neg h]

/-- A branch always answers a next state and only moves the pc. -/
theorem branch_eq (c : Cond) (signed : Bool) (rs1 rs2 : Reg) (imm : Word) (s : State) :
    branch c signed rs1 rs2 imm s = .next (s.advance
      (if compare c signed (s.x rs1) (s.x rs2) then .explicit (s.pc + imm) else .sequential)) := rfl

/-- What an ECALL does, by call number (46_system.md R207). -/
theorem execEcall_cases (s : State) :
    (s.x a7 = 64#32 ∧ execEcall s = sysPrint s) ∨
    (s.x a7 = 93#32 ∧ execEcall s = .next (s.stop (.exited (s.x a0)))) ∨
    (s.x a7 = 0#32 ∧ execEcall s = .next (s.stop .halted)) ∨
    (s.x a7 ≠ 64#32 ∧ s.x a7 ≠ 93#32 ∧ s.x a7 ≠ 0#32 ∧
      execEcall s = .next (s.advance .sequential)) := by
  unfold execEcall
  split
  · exact .inl ⟨by assumption, rfl⟩
  · split
    · exact .inr (.inl ⟨by assumption, rfl⟩)
    · split
      · exact .inr (.inr (.inl ⟨by assumption, rfl⟩))
      · exact .inr (.inr (.inr ⟨by assumption, by assumption, by assumption, rfl⟩))

/-- The print call appends its event or faults (46_system.md R208). -/
theorem sysPrint_cases (s : State) :
    (0 < (s.x a2).toNat ∧ s.config.memSize < (s.x a1).toNat + (s.x a2).toNat ∧
      sysPrint s = raise (.illegalMemoryAccess s.pc (s.x a1) (s.x a2).toNat .syscall) s) ∨
    (((s.x a2).toNat = 0 ∨ (s.x a1).toNat + (s.x a2).toNat ≤ s.config.memSize) ∧
      sysPrint s = .next ((s.print
        ⟨s.x a0, s.mem.bytes (s.x a1).toNat (s.x a2).toNat⟩).advance .sequential)) := by
  unfold sysPrint
  simp only [inRange_false_iff]
  split
  · exact .inl ⟨by tauto, by tauto, rfl⟩
  · exact .inr ⟨by omega, rfl⟩

/-! ## Inversion -/

/-- Everything any of the 47 instructions can do, one case per kind of effect. -/
inductive Does (i : Instr) (s : State) : Result → Prop where
  | writesRegister (rd : Reg) (v : Word) (n : NextPc) (pc : n = .sequential ∨ i.isTransfer = true)
      (noStore : i.isStore = false) (noCall : i ≠ .ecall) : Does i s (.next (s.retire rd v n))
  | movesPc (n : NextPc) (pc : n = .sequential ∨ i.isTransfer = true) (noStore : i.isStore = false) :
      Does i s (.next (s.advance n))
  | stores (a : Word) (k : Nat) (v : Word) (inRange : a.toNat + k ≤ s.config.memSize)
      (isStore : i.isStore = true) (noCall : i ≠ .ecall) :
      Does i s (.next (({ s with mem := s.mem.setBytes a.toNat (bytesOfWord k v) } : State).advance
        .sequential))
  | prints (e : PrintEvent) (call : i = .ecall) :
      Does i s (.next ((s.print e).advance .sequential))
  | stops (st : Status) (final : st = .halted ∨ ∃ c, st = .exited c) (call : i = .ecall) :
      Does i s (.next (s.stop st))
  | faults (a : Word) (k : Nat) (kind : AccessKind) (outOfRange : s.config.memSize < a.toNat + k)
      (accesses : i.isLoad = true ∨ i.isStore = true ∨ i = .ecall) :
      Does i s (raise (.illegalMemoryAccess s.pc a k kind) s)

theorem load_does {i : Instr} {s : State} (hi : i.isLoad = true) (hs : i.isStore = false)
    (he : i ≠ .ecall) (n : Nat) (signed : Bool) (rd rs1 : Reg) (imm : Word) :
    Does i s (load n signed rd rs1 imm s) := by
  rw [load_eq]
  split
  · exact .writesRegister _ _ _ (.inl rfl) hs he
  · exact .faults _ _ _ (by omega) (.inl hi)

theorem store_does {i : Instr} {s : State} (hi : i.isStore = true) (he : i ≠ .ecall) (n : Nat)
    (rs1 rs2 : Reg) (imm : Word) : Does i s (store n rs1 rs2 imm s) := by
  rw [store_eq]
  split
  · exact .stores _ _ _ (by assumption) hi he
  · exact .faults _ _ _ (by omega) (.inr (.inl hi))

theorem execEcall_does (s : State) : Does .ecall s (execEcall s) := by
  rcases execEcall_cases s with ⟨-, h⟩ | ⟨-, h⟩ | ⟨-, h⟩ | ⟨-, -, -, h⟩
  · rcases sysPrint_cases s with ⟨-, hr, h'⟩ | ⟨-, h'⟩
    · rw [h, h']; exact .faults _ _ _ hr (.inr (.inr rfl))
    · rw [h, h']; exact .prints _ rfl
  · rw [h]; exact .stops _ (.inr ⟨_, rfl⟩) rfl
  · rw [h]; exact .stops _ (.inl rfl) rfl
  · rw [h]; exact .movesPc _ (.inl rfl) rfl

/-- Every instruction does one of these. -/
theorem exec_does (i : Instr) (s : State) : Does i s (exec i s) := by
  cases i with
  | lb | lh | lw | lbu | lhu => exact load_does rfl rfl (by simp) ..
  | sb | sh | sw => exact store_does rfl (by simp) ..
  | beq | bne | blt | bge | bltu | bgeu => exact .movesPc _ (.inr rfl) rfl
  | jal | jalr => exact .writesRegister _ _ _ (.inr rfl) rfl (by simp)
  | ebreak => exact .movesPc _ (.inl rfl) rfl
  | ecall => exact execEcall_does s
  | _ => exact .writesRegister _ _ _ (.inl rfl) rfl (by simp)

/-- Everything a cycle can do: a fetch fault, an illegal word, or the decoded instruction. -/
theorem cycle_cases (s : State) :
    (s.config.memSize < s.pc.toNat + 4 ∧ cycle s = raise (.illegalMemoryAccess s.pc s.pc 4 .fetch) s) ∨
    (s.pc.toNat + 4 ≤ s.config.memSize ∧ ∃ e, decode (s.wordAt s.pc.toNat) = .error e ∧
      cycle s = raise (.illegalInstruction s.pc (s.wordAt s.pc.toNat)) s) ∨
    (s.pc.toNat + 4 ≤ s.config.memSize ∧ ∃ i, decode (s.wordAt s.pc.toNat) = .ok i ∧
      cycle s = exec i s) := by
  have hf : fetch s = if s.pc.toNat + 4 ≤ s.config.memSize then
      some (s.wordAt s.pc.toNat) else none := by
    rw [← wordOfBytes_wordAt]; exact memRead_eq s s.pc 4
  unfold cycle
  by_cases hr : s.pc.toNat + 4 ≤ s.config.memSize
  · simp only [hf, if_pos hr]
    cases decode (s.wordAt s.pc.toNat) with
    | error e => exact .inr (.inl ⟨hr, e, rfl, rfl⟩)
    | ok i => exact .inr (.inr ⟨hr, i, rfl, rfl⟩)
  · simp only [hf, if_neg hr]
    exact .inl ⟨by omega, rfl⟩

/-- A step of a Running core is its instruction cycle. -/
@[simp] theorem step_running {s : State} (h : s.status = .running) : step s = cycle s := by
  unfold step; rw [h]

/-- A core that is not Running has no step (10_state.md R32). -/
theorem step_stopped {s : State} (h : s.status ≠ .running) : step s = .fault (.notRunning s.status) := by
  unfold step; split
  · contradiction
  · rfl

/-- A step that answers a next state is an instruction executed by a Running core. -/
theorem step_next {s t : State} (h : step s = .next t) :
    s.status = .running ∧ s.pc.toNat + 4 ≤ s.config.memSize ∧
      ∃ i, decode (s.wordAt s.pc.toNat) = .ok i ∧ exec i s = .next t := by
  by_cases hs : s.status = .running
  · rw [step_running hs] at h
    rcases cycle_cases s with ⟨-, h'⟩ | ⟨-, _, -, h'⟩ | ⟨hr, i, hd, h'⟩
    · rw [h] at h'; cases h'
    · rw [h] at h'; cases h'
    · exact ⟨hs, hr, i, hd, h' ▸ h⟩
  · rw [step_stopped hs] at h; cases h

end Sys2Proof.Machine
end

