-- ==== Sys2Proof/Laws/Decode.lean ====
section
/-! SUPPORT. The fields of every encoded format, and the immediates an encoding carries: the small lemmas the
decoder's and the encoder's claims are put together from. -/

namespace Sys2Proof

/-! ## Bit slices -/

theorem extract_extract {N : Nat} (x : BitVec N) (s l s' l' : Nat) (h : s + l ≤ l') :
    (x.extractLsb' s' l').extractLsb' s l = x.extractLsb' (s' + s) l := by
  apply BitVec.eq_of_getLsbD_eq
  intro i hi
  simp only [BitVec.getLsbD_extractLsb', hi, decide_true, Bool.true_and,
    show s + i < l' by omega, Nat.add_assoc]

theorem extract_signExtend {N : Nat} (x : BitVec N) (s l : Nat) (h : s + l ≤ N) (h' : N ≤ 32) :
    (x.signExtend 32).extractLsb' s l = x.extractLsb' s l := by
  apply BitVec.eq_of_getLsbD_eq
  intro i hi
  simp only [BitVec.getLsbD_extractLsb', BitVec.getLsbD_signExtend, hi]
  simp [show s + i < 32 by omega, show s + i < N by omega]

theorem extract_whole {N : Nat} (x : BitVec N) : x.extractLsb' 0 N = x := by
  apply BitVec.eq_of_getLsbD_eq
  intro i hi
  simp [hi]

@[simp] theorem regBits_toFin (x : BitVec 5) : regBits x.toFin = x := rfl
@[simp] theorem toFin_regBits (r : Reg) : (regBits r).toFin = r := rfl

/-! ## Fields of an encoded word -/

section
variable (f7 : BitVec 7) (f3 : BitVec 3) (op : BitVec 7) (rd rs1 rs2 : Reg) (imm : Word) (n : BitVec 5)

@[simp] theorem opcodeOf_encodeR : opcodeOf (encodeR f7 f3 rd rs1 rs2) = 0b0110011#7 := by
  unfold opcodeOf field encodeR
  rw [BitVec.extractLsb'_append_eq_of_add_le (by decide), extract_whole]
@[simp] theorem rdOf_encodeR : rdOf (encodeR f7 f3 rd rs1 rs2) = rd := by
  unfold rdOf field encodeR
  rw [BitVec.extractLsb'_append_eq_of_le (by decide),
    BitVec.extractLsb'_append_eq_of_add_le (by decide), extract_whole, toFin_regBits]
@[simp] theorem func3Of_encodeR : func3Of (encodeR f7 f3 rd rs1 rs2) = f3 := by
  unfold func3Of field encodeR
  iterate 2 rw [BitVec.extractLsb'_append_eq_of_le (by decide)]
  rw [BitVec.extractLsb'_append_eq_of_add_le (by decide), extract_whole]
@[simp] theorem rs1Of_encodeR : rs1Of (encodeR f7 f3 rd rs1 rs2) = rs1 := by
  unfold rs1Of field encodeR
  iterate 3 rw [BitVec.extractLsb'_append_eq_of_le (by decide)]
  rw [BitVec.extractLsb'_append_eq_of_add_le (by decide), extract_whole, toFin_regBits]
@[simp] theorem rs2Of_encodeR : rs2Of (encodeR f7 f3 rd rs1 rs2) = rs2 := by
  unfold rs2Of field encodeR
  iterate 4 rw [BitVec.extractLsb'_append_eq_of_le (by decide)]
  rw [BitVec.extractLsb'_append_eq_of_add_le (by decide), extract_whole, toFin_regBits]
@[simp] theorem func7Of_encodeR : func7Of (encodeR f7 f3 rd rs1 rs2) = f7 := by
  unfold func7Of field encodeR
  iterate 5 rw [BitVec.extractLsb'_append_eq_of_le (by decide)]
  exact extract_whole _

@[simp] theorem opcodeOf_encodeI : opcodeOf (encodeI op f3 rd rs1 imm) = op := by
  unfold opcodeOf field encodeI
  rw [BitVec.extractLsb'_append_eq_of_add_le (by decide), extract_whole]
@[simp] theorem rdOf_encodeI : rdOf (encodeI op f3 rd rs1 imm) = rd := by
  unfold rdOf field encodeI
  rw [BitVec.extractLsb'_append_eq_of_le (by decide),
    BitVec.extractLsb'_append_eq_of_add_le (by decide), extract_whole, toFin_regBits]
@[simp] theorem func3Of_encodeI : func3Of (encodeI op f3 rd rs1 imm) = f3 := by
  unfold func3Of field encodeI
  iterate 2 rw [BitVec.extractLsb'_append_eq_of_le (by decide)]
  rw [BitVec.extractLsb'_append_eq_of_add_le (by decide), extract_whole]
@[simp] theorem rs1Of_encodeI : rs1Of (encodeI op f3 rd rs1 imm) = rs1 := by
  unfold rs1Of field encodeI
  iterate 3 rw [BitVec.extractLsb'_append_eq_of_le (by decide)]
  rw [BitVec.extractLsb'_append_eq_of_add_le (by decide), extract_whole, toFin_regBits]
theorem immI_encodeI : immI (encodeI op f3 rd rs1 imm) = (imm.extractLsb' 0 12).signExtend 32 := by
  unfold immI encodeI field
  iterate 4 rw [BitVec.extractLsb'_append_eq_of_le (by decide)]
  exact congrArg (BitVec.signExtend 32) (extract_whole _)

@[simp] theorem opcodeOf_encodeShift : opcodeOf (encodeShift f7 f3 rd rs1 n) = 0b0010011#7 := by
  unfold opcodeOf field encodeShift
  rw [BitVec.extractLsb'_append_eq_of_add_le (by decide), extract_whole]
@[simp] theorem rdOf_encodeShift : rdOf (encodeShift f7 f3 rd rs1 n) = rd := by
  unfold rdOf field encodeShift
  rw [BitVec.extractLsb'_append_eq_of_le (by decide),
    BitVec.extractLsb'_append_eq_of_add_le (by decide), extract_whole, toFin_regBits]
@[simp] theorem func3Of_encodeShift : func3Of (encodeShift f7 f3 rd rs1 n) = f3 := by
  unfold func3Of field encodeShift
  iterate 2 rw [BitVec.extractLsb'_append_eq_of_le (by decide)]
  rw [BitVec.extractLsb'_append_eq_of_add_le (by decide), extract_whole]
@[simp] theorem rs1Of_encodeShift : rs1Of (encodeShift f7 f3 rd rs1 n) = rs1 := by
  unfold rs1Of field encodeShift
  iterate 3 rw [BitVec.extractLsb'_append_eq_of_le (by decide)]
  rw [BitVec.extractLsb'_append_eq_of_add_le (by decide), extract_whole, toFin_regBits]
@[simp] theorem func7Of_encodeShift : func7Of (encodeShift f7 f3 rd rs1 n) = f7 := by
  unfold func7Of field encodeShift
  iterate 5 rw [BitVec.extractLsb'_append_eq_of_le (by decide)]
  exact extract_whole _
/-- The decoder's shift amount is w[24:20] (30_encoding.md R73). -/
theorem immI_low5 (w : Word) : (immI w).setWidth 5 = field w 20 5 := by
  rw [BitVec.setWidth_eq_extractLsb' (by decide), immI, extract_signExtend _ _ _ (by decide) (by decide)]
  exact extract_extract w 0 5 20 12 (by decide)
@[simp] theorem field_encodeShift : field (encodeShift f7 f3 rd rs1 n) 20 5 = n := by
  unfold field encodeShift
  iterate 4 rw [BitVec.extractLsb'_append_eq_of_le (by decide)]
  rw [BitVec.extractLsb'_append_eq_of_add_le (by decide), extract_whole]

@[simp] theorem opcodeOf_encodeS : opcodeOf (encodeS f3 rs1 rs2 imm) = 0b0100011#7 := by
  unfold opcodeOf field encodeS
  rw [BitVec.extractLsb'_append_eq_of_add_le (by decide), extract_whole]
@[simp] theorem func3Of_encodeS : func3Of (encodeS f3 rs1 rs2 imm) = f3 := by
  unfold func3Of field encodeS
  iterate 2 rw [BitVec.extractLsb'_append_eq_of_le (by decide)]
  rw [BitVec.extractLsb'_append_eq_of_add_le (by decide), extract_whole]
@[simp] theorem rs1Of_encodeS : rs1Of (encodeS f3 rs1 rs2 imm) = rs1 := by
  unfold rs1Of field encodeS
  iterate 3 rw [BitVec.extractLsb'_append_eq_of_le (by decide)]
  rw [BitVec.extractLsb'_append_eq_of_add_le (by decide), extract_whole, toFin_regBits]
@[simp] theorem rs2Of_encodeS : rs2Of (encodeS f3 rs1 rs2 imm) = rs2 := by
  unfold rs2Of field encodeS
  iterate 4 rw [BitVec.extractLsb'_append_eq_of_le (by decide)]
  rw [BitVec.extractLsb'_append_eq_of_add_le (by decide), extract_whole, toFin_regBits]
theorem immS_encodeS : immS (encodeS f3 rs1 rs2 imm) = (imm.extractLsb' 0 12).signExtend 32 := by
  unfold immS field encodeS field
  repeat (first
    | rw [BitVec.extractLsb'_append_eq_of_add_le (by decide)]
    | rw [BitVec.extractLsb'_append_eq_of_le (by decide)])
  repeat rw [extract_whole]
  rw [BitVec.extractLsb'_append_extractLsb'_eq_extractLsb' (by decide)]

@[simp] theorem opcodeOf_encodeB : opcodeOf (encodeB f3 rs1 rs2 imm) = 0b1100011#7 := by
  unfold opcodeOf field encodeB
  rw [BitVec.extractLsb'_append_eq_of_add_le (by decide), extract_whole]
@[simp] theorem func3Of_encodeB : func3Of (encodeB f3 rs1 rs2 imm) = f3 := by
  unfold func3Of field encodeB
  iterate 3 rw [BitVec.extractLsb'_append_eq_of_le (by decide)]
  rw [BitVec.extractLsb'_append_eq_of_add_le (by decide), extract_whole]
@[simp] theorem rs1Of_encodeB : rs1Of (encodeB f3 rs1 rs2 imm) = rs1 := by
  unfold rs1Of field encodeB
  iterate 4 rw [BitVec.extractLsb'_append_eq_of_le (by decide)]
  rw [BitVec.extractLsb'_append_eq_of_add_le (by decide), extract_whole, toFin_regBits]
@[simp] theorem rs2Of_encodeB : rs2Of (encodeB f3 rs1 rs2 imm) = rs2 := by
  unfold rs2Of field encodeB
  iterate 5 rw [BitVec.extractLsb'_append_eq_of_le (by decide)]
  rw [BitVec.extractLsb'_append_eq_of_add_le (by decide), extract_whole, toFin_regBits]
/-- The B immediate comes back whole when its bit 0 is 0. -/
theorem immB_encodeB (h : imm.extractLsb' 0 1 = 0#1) :
    immB (encodeB f3 rs1 rs2 imm) = (imm.extractLsb' 0 13).signExtend 32 := by
  unfold immB field encodeB field
  repeat (first
    | rw [BitVec.extractLsb'_append_eq_of_add_le (by decide)]
    | rw [BitVec.extractLsb'_append_eq_of_le (by decide)])
  repeat rw [extract_extract _ _ _ _ _ (by decide)]
  rw [← h]
  repeat rw [BitVec.extractLsb'_append_extractLsb'_eq_extractLsb' (by decide)]

@[simp] theorem opcodeOf_encodeU : opcodeOf (encodeU op rd imm) = op := by
  unfold opcodeOf field encodeU
  rw [BitVec.extractLsb'_append_eq_of_add_le (by decide), extract_whole]
@[simp] theorem rdOf_encodeU : rdOf (encodeU op rd imm) = rd := by
  unfold rdOf field encodeU
  rw [BitVec.extractLsb'_append_eq_of_le (by decide),
    BitVec.extractLsb'_append_eq_of_add_le (by decide), extract_whole, toFin_regBits]
/-- The U immediate comes back whole when its low twelve bits are 0. -/
theorem immU_encodeU (h : imm.extractLsb' 0 12 = 0#12) : immU (encodeU op rd imm) = imm := by
  unfold immU field encodeU field
  iterate 2 rw [BitVec.extractLsb'_append_eq_of_le (by decide)]
  rw [extract_extract _ _ _ _ _ (by decide), ← h,
    BitVec.extractLsb'_append_extractLsb'_eq_extractLsb' (by decide)]
  exact extract_whole imm

@[simp] theorem opcodeOf_encodeJ : opcodeOf (encodeJ rd imm) = 0b1101111#7 := by
  unfold opcodeOf field encodeJ
  rw [BitVec.extractLsb'_append_eq_of_add_le (by decide), extract_whole]
@[simp] theorem rdOf_encodeJ : rdOf (encodeJ rd imm) = rd := by
  unfold rdOf field encodeJ
  rw [BitVec.extractLsb'_append_eq_of_le (by decide),
    BitVec.extractLsb'_append_eq_of_add_le (by decide), extract_whole, toFin_regBits]
/-- The J immediate comes back whole when its bit 0 is 0. -/
theorem immJ_encodeJ (h : imm.extractLsb' 0 1 = 0#1) :
    immJ (encodeJ rd imm) = (imm.extractLsb' 0 21).signExtend 32 := by
  unfold immJ field encodeJ field
  repeat (first
    | rw [BitVec.extractLsb'_append_eq_of_add_le (by decide)]
    | rw [BitVec.extractLsb'_append_eq_of_le (by decide)])
  repeat rw [extract_extract _ _ _ _ _ (by decide)]
  rw [← h]
  repeat rw [BitVec.extractLsb'_append_extractLsb'_eq_extractLsb' (by decide)]

end

/-! ## What WellFormed gives of an immediate -/

theorem toNat_as_toInt (x : Word) :
    (x.toNat : Int) = if x.toInt < 0 then x.toInt + 4294967296 else x.toInt := by
  have h1 := x.isLt
  rw [BitVec.toInt_eq_toNat_cond]
  split <;> split <;> omega

theorem bit0_of_even {imm : Word} (h : imm.toInt % 2 = 0) : imm.extractLsb' 0 1 = 0#1 := by
  have := toNat_as_toInt imm
  have h2 : imm.toNat % 2 = 0 := by split at this <;> omega
  apply BitVec.eq_of_toNat_eq
  simp [BitVec.extractLsb'_toNat, h2]

/-- A value in the signed range of 12 bits is the sign extension of its low 12 bits. -/
theorem sext_of_fits12 {imm : Word} (h : immFits12 imm = true) :
    (imm.extractLsb' 0 12).signExtend 32 = imm := by
  simp only [immFits12, decide_eq_true_eq] at h
  apply BitVec.eq_of_toInt_eq
  rw [← BitVec.setWidth_eq_extractLsb' (by decide), BitVec.toInt_signExtend_of_le (by decide),
    BitVec.toInt_setWidth, toNat_as_toInt]
  simp only [Int.bmod]
  norm_num
  split <;> split <;> omega

theorem sext_of_fitsB {imm : Word} (h : immFitsB imm = true) :
    (imm.extractLsb' 0 13).signExtend 32 = imm := by
  simp only [immFitsB, decide_eq_true_eq] at h
  apply BitVec.eq_of_toInt_eq
  rw [← BitVec.setWidth_eq_extractLsb' (by decide), BitVec.toInt_signExtend_of_le (by decide),
    BitVec.toInt_setWidth, toNat_as_toInt]
  simp only [Int.bmod]
  norm_num
  split <;> split <;> omega

theorem sext_of_fitsJ {imm : Word} (h : immFitsJ imm = true) :
    (imm.extractLsb' 0 21).signExtend 32 = imm := by
  simp only [immFitsJ, decide_eq_true_eq] at h
  apply BitVec.eq_of_toInt_eq
  rw [← BitVec.setWidth_eq_extractLsb' (by decide), BitVec.toInt_signExtend_of_le (by decide),
    BitVec.toInt_setWidth, toNat_as_toInt]
  simp only [Int.bmod]
  norm_num
  split <;> split <;> omega

theorem bit0_of_fitsB {imm : Word} (h : immFitsB imm = true) : imm.extractLsb' 0 1 = 0#1 := by
  simp only [immFitsB, decide_eq_true_eq] at h
  exact bit0_of_even h.2.2

theorem bit0_of_fitsJ {imm : Word} (h : immFitsJ imm = true) : imm.extractLsb' 0 1 = 0#1 := by
  simp only [immFitsJ, decide_eq_true_eq] at h
  exact bit0_of_even h.2.2

theorem low12_of_fitsU {imm : Word} (h : immFitsU imm = true) : imm.extractLsb' 0 12 = 0#12 := by
  simp only [immFitsU, decide_eq_true_eq] at h
  apply BitVec.eq_of_toNat_eq
  simp [BitVec.extractLsb'_toNat, h]

/-! ## A word is put together again from its fields -/

theorem encodeR_fields (w : Word) (h : opcodeOf w = 0b0110011#7) :
    encodeR (func7Of w) (func3Of w) (rdOf w) (rs1Of w) (rs2Of w) = w := by
  unfold encodeR func7Of func3Of rdOf rs1Of rs2Of
  rw [← h]
  unfold opcodeOf field
  simp only [regBits_toFin]
  repeat rw [BitVec.extractLsb'_append_extractLsb'_eq_extractLsb' (by decide)]
  exact extract_whole w

theorem encodeI_fields (w : Word) :
    encodeI (opcodeOf w) (func3Of w) (rdOf w) (rs1Of w) (immI w) = w := by
  unfold encodeI func3Of rdOf rs1Of immI opcodeOf field
  rw [extract_signExtend _ _ _ (by decide) (by decide), extract_whole]
  simp only [regBits_toFin]
  repeat rw [BitVec.extractLsb'_append_extractLsb'_eq_extractLsb' (by decide)]
  exact extract_whole w

theorem encodeShift_fields (w : Word) (h : opcodeOf w = 0b0010011#7) :
    encodeShift (func7Of w) (func3Of w) (rdOf w) (rs1Of w) ((immI w).setWidth 5) = w := by
  rw [immI_low5]
  unfold encodeShift func7Of func3Of rdOf rs1Of
  rw [← h]
  unfold opcodeOf field
  simp only [regBits_toFin]
  repeat rw [BitVec.extractLsb'_append_extractLsb'_eq_extractLsb' (by decide)]
  exact extract_whole w

theorem immS_field (w : Word) (s l : Nat) (h : s + l ≤ 12) :
    (immS w).extractLsb' s l = (field w 25 7 ++ field w 7 5).extractLsb' s l :=
  extract_signExtend _ _ _ h (by decide)

theorem encodeS_fields (w : Word) (h : opcodeOf w = 0b0100011#7) :
    encodeS (func3Of w) (rs1Of w) (rs2Of w) (immS w) = w := by
  unfold encodeS func3Of rs1Of rs2Of field
  rw [immS_field _ _ _ (by decide), immS_field _ _ _ (by decide)]
  rw [BitVec.extractLsb'_append_eq_of_le (by decide),
    BitVec.extractLsb'_append_eq_of_add_le (by decide), extract_whole]
  rw [← h]
  unfold opcodeOf field
  rw [extract_whole]
  simp only [regBits_toFin]
  repeat rw [BitVec.extractLsb'_append_extractLsb'_eq_extractLsb' (by decide)]
  exact extract_whole w

theorem encodeB_fields (w : Word) (h : opcodeOf w = 0b1100011#7) :
    encodeB (func3Of w) (rs1Of w) (rs2Of w) (immB w) = w := by
  unfold encodeB func3Of rs1Of rs2Of field immB
  iterate 4 rw [extract_signExtend _ _ _ (by decide) (by decide)]
  repeat (first
    | rw [BitVec.extractLsb'_append_eq_of_add_le (by decide)]
    | rw [BitVec.extractLsb'_append_eq_of_le (by decide)])
  unfold field
  rw [← h]
  unfold opcodeOf field
  repeat rw [extract_extract _ _ _ _ _ (by decide)]
  simp only [regBits_toFin]
  repeat rw [BitVec.extractLsb'_append_extractLsb'_eq_extractLsb' (by decide)]
  exact extract_whole w

theorem encodeU_fields (w : Word) :
    encodeU (opcodeOf w) (rdOf w) (immU w) = w := by
  unfold encodeU rdOf immU opcodeOf field
  rw [BitVec.extractLsb'_append_eq_of_le (by decide), extract_extract _ _ _ _ _ (by decide)]
  simp only [regBits_toFin]
  repeat rw [BitVec.extractLsb'_append_extractLsb'_eq_extractLsb' (by decide)]
  exact extract_whole w

theorem encodeJ_fields (w : Word) (h : opcodeOf w = 0b1101111#7) :
    encodeJ (rdOf w) (immJ w) = w := by
  unfold encodeJ rdOf field immJ
  iterate 4 rw [extract_signExtend _ _ _ (by decide) (by decide)]
  repeat (first
    | rw [BitVec.extractLsb'_append_eq_of_add_le (by decide)]
    | rw [BitVec.extractLsb'_append_eq_of_le (by decide)])
  unfold field
  rw [← h]
  unfold opcodeOf field
  repeat rw [extract_extract _ _ _ _ _ (by decide)]
  simp only [regBits_toFin]
  repeat rw [BitVec.extractLsb'_append_extractLsb'_eq_extractLsb' (by decide)]
  exact extract_whole w

/-! ## The ranges of the decoded immediates (30_encoding.md R63 to R67) -/

theorem signExtend_range {n : Nat} (x : BitVec n) (h : n ≤ 32) :
    -2 ^ (n - 1) ≤ (x.signExtend 32).toInt ∧ (x.signExtend 32).toInt < 2 ^ (n - 1) := by
  rw [BitVec.toInt_signExtend_of_le h]
  exact ⟨BitVec.le_toInt x, BitVec.toInt_lt⟩

theorem immI_fits (w : Word) : immFits12 (immI w) = true := by
  have := signExtend_range (field w 20 12) (by decide)
  norm_num at this
  unfold immI immFits12; rw [decide_eq_true_eq]; omega

theorem immS_fits (w : Word) : immFits12 (immS w) = true := by
  have := signExtend_range (field w 25 7 ++ field w 7 5) (by decide)
  norm_num at this
  unfold immS immFits12; rw [decide_eq_true_eq]; omega

theorem append_zero_even {n : Nat} (x : BitVec n) (h : n + 1 ≤ 32) :
    ((x ++ 0#1).signExtend 32).toInt % 2 = 0 := by
  rw [BitVec.toInt_signExtend_of_le h, BitVec.toInt_eq_toNat_cond]
  have : (x ++ 0#1).toNat = x.toNat * 2 := by simp [BitVec.toNat_append, Nat.shiftLeft_eq]
  have h2 : 2 ^ (n + 1) = 2 * 2 ^ n := by ring
  rw [this]; split <;> push_cast <;> omega

theorem immB_fits (w : Word) : immFitsB (immB w) = true := by
  have := signExtend_range (field w 31 1 ++ field w 7 1 ++ field w 25 6 ++ field w 8 4 ++ 0#1)
    (by decide)
  have h2 := append_zero_even (field w 31 1 ++ field w 7 1 ++ field w 25 6 ++ field w 8 4) (by decide)
  norm_num at this
  unfold immB immFitsB; rw [decide_eq_true_eq]; omega

theorem immJ_fits (w : Word) : immFitsJ (immJ w) = true := by
  have := signExtend_range (field w 31 1 ++ field w 12 8 ++ field w 20 1 ++ field w 21 10 ++ 0#1)
    (by decide)
  have h2 := append_zero_even (field w 31 1 ++ field w 12 8 ++ field w 20 1 ++ field w 21 10)
    (by decide)
  norm_num at this
  unfold immJ immFitsJ; rw [decide_eq_true_eq]; omega

theorem immU_fits (w : Word) : immFitsU (immU w) = true := by
  simp only [immFitsU, decide_eq_true_eq, immU, BitVec.toNat_append, Nat.shiftLeft_eq]
  simp

end Sys2Proof
end

