-- ==== Sys2Proof/Laws/Alu.lean ====
section
/-! SUPPORT. What the operations of the ALU and of the multiply/divide unit compute, in the arithmetic of the
spec's rules. -/

namespace Sys2Proof.Machine

/-! ## ALU (41_alu.md R110 to R113) -/

theorem ofInt_sub (a b : Int) : BitVec.ofInt 32 (a - b) = BitVec.ofInt 32 a - BitVec.ofInt 32 b := by
  rw [Int.sub_eq_add_neg, BitVec.ofInt_add, BitVec.ofInt_neg, BitVec.sub_eq_add_neg]

/-- Adding the complement and 1 subtracts. -/
theorem aluSub_eq (a b : Word) : aluSub a b = a - b := by
  unfold aluSub aluAdd
  apply BitVec.eq_of_toNat_eq
  have := a.isLt; have := b.isLt
  simp only [BitVec.toNat_add, BitVec.toNat_sub, BitVec.toNat_not, BitVec.toNat_ofNat]
  omega

/-- The mask 31 keeps the amount modulo 32. -/
theorem toNat_and_31 (v : Word) : (v &&& 31#32).toNat = v.toNat % 32 := by
  rw [BitVec.toNat_and]; exact Nat.and_two_pow_sub_one_eq_mod _ 5

theorem aluShift_left (signed : Bool) (v n : Word) :
    aluShift .left signed v n = BitVec.ofNat 32 (v.toNat * 2 ^ (n.toNat % 32)) := by
  show v <<< (n &&& 31#32).toNat = _
  rw [toNat_and_31]
  apply BitVec.eq_of_toNat_eq
  simp [Nat.shiftLeft_eq]

theorem aluShift_right_unsigned (v n : Word) :
    aluShift .right false v n = BitVec.ofNat 32 (v.toNat / 2 ^ (n.toNat % 32)) := by
  apply BitVec.eq_of_toNat_eq
  have := v.isLt
  have := Nat.div_le_self v.toNat (2 ^ (n.toNat % 32))
  show (v >>> (n &&& 31#32).toNat).toNat = _
  rw [toNat_and_31, BitVec.toNat_ushiftRight, Nat.shiftRight_eq_div_pow, BitVec.toNat_ofNat]
  exact (Nat.mod_eq_of_lt (by omega)).symm

theorem aluShift_right_signed (v n : Word) :
    aluShift .right true v n = BitVec.ofInt 32 (v.toInt / 2 ^ (n.toNat % 32)) := by
  show v.sshiftRight (n &&& 31#32).toNat = _
  rw [toNat_and_31]
  unfold BitVec.sshiftRight; rw [Int.shiftRight_eq_div_pow]; norm_num

theorem boolWord_decide (P : Prop) [Decidable P] :
    boolWord (decide P) = if P then 1#32 else 0#32 := by
  by_cases h : P <;> simp [boolWord, h]

/-! ## Products (42_muldiv.md R140) -/

theorem lowWord_eq (p : Int) : lowWord p = BitVec.ofInt 32 p := by
  apply BitVec.eq_of_toNat_eq
  simp [lowWord, product64, BitVec.extractLsb'_toNat]; omega

theorem highWord_eq (p : Int) : highWord p = BitVec.ofInt 32 (p / 2 ^ 32) := by
  apply BitVec.eq_of_toNat_eq
  simp [highWord, product64, BitVec.extractLsb'_toNat, Nat.shiftRight_eq_div_pow]; omega

/-! ## The quotient fits a word but for INT32_MIN / -1 -/

theorem toInt_ofInt_tdiv (a b : Word) (h : ¬ (a = int32Min ∧ b = allOnes)) :
    (BitVec.ofInt 32 (a.toInt.tdiv b.toInt)).toInt = a.toInt.tdiv b.toInt := by
  rw [← BitVec.toInt_sdiv_of_ne_or_ne]
  · simp
  · by_contra hc
    push Not at hc
    exact h ⟨hc.1, hc.2⟩

theorem toInt_ofInt_tmod (a b : Word) :
    (BitVec.ofInt 32 (a.toInt.tmod b.toInt)).toInt = a.toInt.tmod b.toInt := by
  rw [← BitVec.toInt_srem, BitVec.ofInt_toInt]

/-! ## The two parts of a 32-bit constant (45_large_immediate.md R200) -/

theorem immU_eq_and (w : Word) : immU w = w &&& 0xFFFFF000#32 := by
  unfold immU field
  apply BitVec.eq_of_getLsbD_eq
  intro i hi
  have key : ∀ i < 32, (0xFFFFF000#32).getLsbD i = decide (12 ≤ i) := by decide
  rw [BitVec.getLsbD_and, key i hi, BitVec.getLsbD_append, BitVec.getLsbD_extractLsb']
  by_cases h : i < 12
  · simp [h]
  · simp [h, show 12 ≤ i by omega, show i - 12 < 20 by omega, show 12 + (i - 12) = i by omega]

theorem signExtend_low12 (c : Word) : (c.extractLsb' 0 12).signExtend 32 = BitVec.ofInt 32
    (if c.toNat % 4096 < 2048 then (c.toNat % 4096 : Int) else (c.toNat % 4096 : Int) - 4096) := by
  rw [BitVec.signExtend]; congr 1
  rw [BitVec.toInt_eq_toNat_cond, BitVec.extractLsb'_toNat]
  have : c.toNat >>> 0 % 2 ^ 12 = c.toNat % 4096 := by simp
  rw [this]
  split <;> split <;> omega

/-- The upper part and the sign-extended low twelve bits add up to the constant. -/
theorem upper_add_lower (c : Word) :
    ((c + 0x800#32) &&& 0xFFFFF000#32) + (c.extractLsb' 0 12).signExtend 32 = c := by
  rw [signExtend_low12]
  apply BitVec.eq_of_toNat_eq
  rw [← immU_eq_and, immU]
  have hc := c.isLt
  have e : (field (c + 0x800#32) 12 20 ++ 0#12).toNat = (c + 0x800#32).toNat / 4096 * 4096 := by
    rw [BitVec.toNat_append, ← Nat.shiftLeft_add_eq_or_of_lt (by simp), Nat.shiftLeft_eq]
    have := (c + 0x800#32).isLt
    simp [field, BitVec.extractLsb'_toNat, Nat.shiftRight_eq_div_pow]; omega
  rw [BitVec.toNat_add, e, BitVec.toNat_add]
  split <;> simp <;> omega

end Sys2Proof.Machine
end

