-- ==== Sys2Proof/Laws/PerInstr.lean ====
section
/-! SUPPORT. Family TableRow: the word the encoder gives an instruction has, at the fixed bits of the
instruction's row of spec/opcode_table.json, the row's values. -/

namespace Sys2Proof

/-- A word whose opcode, func3 and func7 are those of a match value agrees with it under the R mask. -/
theorem mask_of_fields {w m : Word} (h0 : opcodeOf w = opcodeOf m) (h3 : func3Of w = func3Of m)
    (h7 : func7Of w = func7Of m) : w &&& 0xFE00707F#32 = m &&& 0xFE00707F#32 := by
  apply BitVec.eq_of_getLsbD_eq
  intro i hi
  rw [BitVec.getLsbD_and, BitVec.getLsbD_and]
  by_cases a : i < 7
  · have := congrArg (BitVec.getLsbD · i) h0
    simp only [opcodeOf, field, BitVec.getLsbD_extractLsb', a, decide_true, Bool.true_and,
      Nat.zero_add] at this
    rw [this]
  · by_cases b : 12 ≤ i ∧ i < 15
    · have := congrArg (BitVec.getLsbD · (i - 12)) h3
      simp only [func3Of, field, BitVec.getLsbD_extractLsb', show i - 12 < 3 by omega, decide_true,
        Bool.true_and, show 12 + (i - 12) = i by omega] at this
      rw [this]
    · by_cases c : 25 ≤ i
      · have := congrArg (BitVec.getLsbD · (i - 25)) h7
        simp only [func7Of, field, BitVec.getLsbD_extractLsb', show i - 25 < 7 by omega, decide_true,
          Bool.true_and, show 25 + (i - 25) = i by omega] at this
        rw [this]
      · have h : ∀ j < 32, ¬ j < 7 → ¬ (12 ≤ j ∧ j < 15) → ¬ 25 ≤ j →
            (0xFE00707F#32).getLsbD j = false := by decide
        rw [h i hi a b c, Bool.and_false, Bool.and_false]

/-- The same for the mask of the formats without func7. -/
theorem mask_of_fields3 {w m : Word} (h0 : opcodeOf w = opcodeOf m) (h3 : func3Of w = func3Of m) :
    w &&& 0x0000707F#32 = m &&& 0x0000707F#32 := by
  apply BitVec.eq_of_getLsbD_eq
  intro i hi
  rw [BitVec.getLsbD_and, BitVec.getLsbD_and]
  by_cases a : i < 7
  · have := congrArg (BitVec.getLsbD · i) h0
    simp only [opcodeOf, field, BitVec.getLsbD_extractLsb', a, decide_true, Bool.true_and,
      Nat.zero_add] at this
    rw [this]
  · by_cases b : 12 ≤ i ∧ i < 15
    · have := congrArg (BitVec.getLsbD · (i - 12)) h3
      simp only [func3Of, field, BitVec.getLsbD_extractLsb', show i - 12 < 3 by omega, decide_true,
        Bool.true_and, show 12 + (i - 12) = i by omega] at this
      rw [this]
    · have h : ∀ j < 32, ¬ j < 7 → ¬ (12 ≤ j ∧ j < 15) → (0x0000707F#32).getLsbD j = false := by decide
      rw [h i hi a b, Bool.and_false, Bool.and_false]

/-- The same for the mask of the formats with the opcode alone. -/
theorem mask_of_opcode {w m : Word} (h0 : opcodeOf w = opcodeOf m) :
    w &&& 0x0000007F#32 = m &&& 0x0000007F#32 := by
  apply BitVec.eq_of_getLsbD_eq
  intro i hi
  rw [BitVec.getLsbD_and, BitVec.getLsbD_and]
  by_cases a : i < 7
  · have := congrArg (BitVec.getLsbD · i) h0
    simp only [opcodeOf, field, BitVec.getLsbD_extractLsb', a, decide_true, Bool.true_and,
      Nat.zero_add] at this
    rw [this]
  · have h : ∀ j < 32, ¬ j < 7 → (0x0000007F#32).getLsbD j = false := by decide
    rw [h i hi a, Bool.and_false, Bool.and_false]

namespace Laws.TableRow

/-- The encoded word matches the instruction's row. -/
def Statement (i : Instr) : Prop := encode i &&& i.tableMask = i.tableMatch

theorem rForm {f7 : BitVec 7} {f3 : BitVec 3} {rd rs1 rs2 : Reg} (m : Word)
    (h0 : opcodeOf m = 0b0110011#7) (h3 : func3Of m = f3) (h7 : func7Of m = f7)
    (hm : m &&& 0xFE00707F#32 = m) : encodeR f7 f3 rd rs1 rs2 &&& 0xFE00707F#32 = m := by
  rw [mask_of_fields (m := m) (by simp [h0]) (by simp [h3]) (by simp [h7]), hm]

theorem shiftForm {f7 : BitVec 7} {f3 : BitVec 3} {rd rs1 : Reg} {n : BitVec 5} (m : Word)
    (h0 : opcodeOf m = 0b0010011#7) (h3 : func3Of m = f3) (h7 : func7Of m = f7)
    (hm : m &&& 0xFE00707F#32 = m) : encodeShift f7 f3 rd rs1 n &&& 0xFE00707F#32 = m := by
  rw [mask_of_fields (m := m) (by simp [h0]) (by simp [h3]) (by simp [h7]), hm]

theorem iForm {op : BitVec 7} {f3 : BitVec 3} {rd rs1 : Reg} {imm : Word} (m : Word)
    (h0 : opcodeOf m = op) (h3 : func3Of m = f3) (hm : m &&& 0x0000707F#32 = m) :
    encodeI op f3 rd rs1 imm &&& 0x0000707F#32 = m := by
  rw [mask_of_fields3 (m := m) (by simp [h0]) (by simp [h3]), hm]

theorem sForm {f3 : BitVec 3} {rs1 rs2 : Reg} {imm : Word} (m : Word)
    (h0 : opcodeOf m = 0b0100011#7) (h3 : func3Of m = f3) (hm : m &&& 0x0000707F#32 = m) :
    encodeS f3 rs1 rs2 imm &&& 0x0000707F#32 = m := by
  rw [mask_of_fields3 (m := m) (by simp [h0]) (by simp [h3]), hm]

theorem bForm {f3 : BitVec 3} {rs1 rs2 : Reg} {imm : Word} (m : Word)
    (h0 : opcodeOf m = 0b1100011#7) (h3 : func3Of m = f3) (hm : m &&& 0x0000707F#32 = m) :
    encodeB f3 rs1 rs2 imm &&& 0x0000707F#32 = m := by
  rw [mask_of_fields3 (m := m) (by simp [h0]) (by simp [h3]), hm]

theorem uForm {op : BitVec 7} {rd : Reg} {imm : Word} (m : Word) (h0 : opcodeOf m = op)
    (hm : m &&& 0x0000007F#32 = m) : encodeU op rd imm &&& 0x0000007F#32 = m := by
  rw [mask_of_opcode (m := m) (by simp [h0]), hm]

theorem jForm {rd : Reg} {imm : Word} (m : Word) (h0 : opcodeOf m = 0b1101111#7)
    (hm : m &&& 0x0000007F#32 = m) : encodeJ rd imm &&& 0x0000007F#32 = m := by
  rw [mask_of_opcode (m := m) (by simp [h0]), hm]

variable (rd rs1 rs2 : Reg) (imm : Word) (shamt : BitVec 5)

theorem add : Statement (.add rd rs1 rs2) :=
  rForm 0x00000033#32 rfl rfl rfl (by decide)
theorem sub : Statement (.sub rd rs1 rs2) :=
  rForm 0x40000033#32 rfl rfl rfl (by decide)
theorem sll : Statement (.sll rd rs1 rs2) :=
  rForm 0x00001033#32 rfl rfl rfl (by decide)
theorem slt : Statement (.slt rd rs1 rs2) :=
  rForm 0x00002033#32 rfl rfl rfl (by decide)
theorem sltu : Statement (.sltu rd rs1 rs2) :=
  rForm 0x00003033#32 rfl rfl rfl (by decide)
theorem xor : Statement (.xor rd rs1 rs2) :=
  rForm 0x00004033#32 rfl rfl rfl (by decide)
theorem srl : Statement (.srl rd rs1 rs2) :=
  rForm 0x00005033#32 rfl rfl rfl (by decide)
theorem sra : Statement (.sra rd rs1 rs2) :=
  rForm 0x40005033#32 rfl rfl rfl (by decide)
theorem or : Statement (.or rd rs1 rs2) :=
  rForm 0x00006033#32 rfl rfl rfl (by decide)
theorem and : Statement (.and rd rs1 rs2) :=
  rForm 0x00007033#32 rfl rfl rfl (by decide)
theorem mul : Statement (.mul rd rs1 rs2) :=
  rForm 0x02000033#32 rfl rfl rfl (by decide)
theorem mulh : Statement (.mulh rd rs1 rs2) :=
  rForm 0x02001033#32 rfl rfl rfl (by decide)
theorem mulhsu : Statement (.mulhsu rd rs1 rs2) :=
  rForm 0x02002033#32 rfl rfl rfl (by decide)
theorem mulhu : Statement (.mulhu rd rs1 rs2) :=
  rForm 0x02003033#32 rfl rfl rfl (by decide)
theorem div : Statement (.div rd rs1 rs2) :=
  rForm 0x02004033#32 rfl rfl rfl (by decide)
theorem divu : Statement (.divu rd rs1 rs2) :=
  rForm 0x02005033#32 rfl rfl rfl (by decide)
theorem rem : Statement (.rem rd rs1 rs2) :=
  rForm 0x02006033#32 rfl rfl rfl (by decide)
theorem remu : Statement (.remu rd rs1 rs2) :=
  rForm 0x02007033#32 rfl rfl rfl (by decide)
theorem addi : Statement (.addi rd rs1 imm) :=
  iForm 0x00000013#32 rfl rfl (by decide)
theorem slti : Statement (.slti rd rs1 imm) :=
  iForm 0x00002013#32 rfl rfl (by decide)
theorem sltiu : Statement (.sltiu rd rs1 imm) :=
  iForm 0x00003013#32 rfl rfl (by decide)
theorem xori : Statement (.xori rd rs1 imm) :=
  iForm 0x00004013#32 rfl rfl (by decide)
theorem ori : Statement (.ori rd rs1 imm) :=
  iForm 0x00006013#32 rfl rfl (by decide)
theorem andi : Statement (.andi rd rs1 imm) :=
  iForm 0x00007013#32 rfl rfl (by decide)
theorem slli : Statement (.slli rd rs1 shamt) :=
  shiftForm 0x00001013#32 rfl rfl rfl (by decide)
theorem srli : Statement (.srli rd rs1 shamt) :=
  shiftForm 0x00005013#32 rfl rfl rfl (by decide)
theorem srai : Statement (.srai rd rs1 shamt) :=
  shiftForm 0x40005013#32 rfl rfl rfl (by decide)
theorem lb : Statement (.lb rd rs1 imm) :=
  iForm 0x00000003#32 rfl rfl (by decide)
theorem lh : Statement (.lh rd rs1 imm) :=
  iForm 0x00001003#32 rfl rfl (by decide)
theorem lw : Statement (.lw rd rs1 imm) :=
  iForm 0x00002003#32 rfl rfl (by decide)
theorem lbu : Statement (.lbu rd rs1 imm) :=
  iForm 0x00004003#32 rfl rfl (by decide)
theorem lhu : Statement (.lhu rd rs1 imm) :=
  iForm 0x00005003#32 rfl rfl (by decide)
theorem sb : Statement (.sb rs1 rs2 imm) :=
  sForm 0x00000023#32 rfl rfl (by decide)
theorem sh : Statement (.sh rs1 rs2 imm) :=
  sForm 0x00001023#32 rfl rfl (by decide)
theorem sw : Statement (.sw rs1 rs2 imm) :=
  sForm 0x00002023#32 rfl rfl (by decide)
theorem beq : Statement (.beq rs1 rs2 imm) :=
  bForm 0x00000063#32 rfl rfl (by decide)
theorem bne : Statement (.bne rs1 rs2 imm) :=
  bForm 0x00001063#32 rfl rfl (by decide)
theorem blt : Statement (.blt rs1 rs2 imm) :=
  bForm 0x00004063#32 rfl rfl (by decide)
theorem bge : Statement (.bge rs1 rs2 imm) :=
  bForm 0x00005063#32 rfl rfl (by decide)
theorem bltu : Statement (.bltu rs1 rs2 imm) :=
  bForm 0x00006063#32 rfl rfl (by decide)
theorem bgeu : Statement (.bgeu rs1 rs2 imm) :=
  bForm 0x00007063#32 rfl rfl (by decide)
theorem lui : Statement (.lui rd imm) :=
  uForm 0x00000037#32 rfl (by decide)
theorem auipc : Statement (.auipc rd imm) :=
  uForm 0x00000017#32 rfl (by decide)
theorem jal : Statement (.jal rd imm) :=
  jForm 0x0000006F#32 rfl (by decide)
theorem jalr : Statement (.jalr rd rs1 imm) :=
  iForm 0x00000067#32 rfl rfl (by decide)
theorem ecall : Statement .ecall := rfl
theorem ebreak : Statement .ebreak := rfl

end Laws.TableRow

end Sys2Proof
end

