-- ==== Sys2Proof/Tests/Slice0.lean ====
section
/-! SUPPORT. The model's own tests, with the spec's expected results: decoder vectors (95_test_vectors.md 2.1,
2.2, 2.10), one or two single steps for each instruction (2.3 to 2.9), the checks of WellFormed, and for every
statement with hypotheses a state and operands that meet them. -/

namespace Sys2Proof.Tests

open Sys2Proof Sys2Proof.Machine

/-! ## Small states -/

/-- The start state of 95_test_vectors.md: reset with RESET_PC = 0 and MEM_SIZE = 0x1000. -/
def start : State := State.boot ⟨0#32, 0x00000FFF#32⟩ []

/-- The word at pc p, a in x6 and b in x7. -/
def at_ (p w a b : Word) : State := placeWord { (start.setX 6 a).setX 7 b with pc := p } w

/-- The next state, if there is one. -/
def next? : Result → Option State
  | .next t => some t
  | .fault _ | .refused _ => none

/-- x[r] after one step. -/
def regAfter (r : Reg) (s : State) : Option Word := (next? (step s)).map (·.x r)

/-- x5 after the word runs at 0 on a and b. -/
def x5 (w a b : Word) : Option Word := regAfter 5 (at_ 0#32 w a b)

/-- The pc after the word runs at p on a and b. -/
def pcOf (p w a b : Word) : Option Word := (next? (step (at_ p w a b))).map (·.pc)

/-- The cause of the fault a step takes, if it takes one. -/
def causeOf : Result → Option Cause
  | .fault (.raised c _) => some c
  | .next _ | .fault (.notRunning _) | .refused _ => none

/-- The bytes of 95_test_vectors.md 2.6 at 0x100, x6 = 0x104, x7 = 0xAABBCCDD, the word at 0. -/
def memState (w : Word) : State :=
  let s := at_ 0#32 w 0x00000104#32 0xAABBCCDD#32
  { s with mem := s.mem.setBytes 0x100 [0xEF, 0xBE, 0xAD, 0xDE, 0x78, 0x56, 0x34, 0x12] }

/-- The word at 0x100 after one step. -/
def word100 (w : Word) : Option Word := (next? (step (memState w))).map (·.wordAt 0x100)

/-- An ECALL at 0x10 with the bytes 48 69 0A at 0x200, and a7, a0, a1, a2 given. -/
def callState (n p0 p1 p2 : Word) : State :=
  let s := placeWord { start with pc := 0x10#32 } 0x00000073#32
  { (((s.setX 17 n).setX 10 p0).setX 11 p1).setX 12 p2 with
    mem := s.mem.setBytes 0x200 [0x48, 0x69, 0x0A] }

/-! ## WellFormed refuses an ill-formed term for each check -/

theorem test_wf_imm12_high : (Instr.addi 5 6 2048#32).wf = false := by decide

theorem test_wf_imm12_low : (Instr.sw 6 7 0xFFFFF7FF#32).wf = false := by decide

theorem test_wf_immB_high : (Instr.beq 6 7 4096#32).wf = false := by decide

theorem test_wf_immB_low : (Instr.bne 6 7 0xFFFFEFFE#32).wf = false := by decide

theorem test_wf_immB_odd : (Instr.blt 6 7 9#32).wf = false := by decide

theorem test_wf_immJ_high : (Instr.jal 1 0x00100000#32).wf = false := by decide

theorem test_wf_immJ_low : (Instr.jal 1 0xFFEFFFFE#32).wf = false := by decide

theorem test_wf_immJ_odd : (Instr.jal 1 7#32).wf = false := by decide

theorem test_wf_immU : (Instr.lui 5 0xABCDE001#32).wf = false := by decide

/-! ## Every constructor's decoding, on a word written out from its encoding (95_test_vectors.md 2.2) -/

theorem test_decode_alu_r :
    decode 0x007302B3#32 = .ok (.add 5 6 7) ∧
    decode 0x407302B3#32 = .ok (.sub 5 6 7) ∧
    decode 0x007312B3#32 = .ok (.sll 5 6 7) ∧
    decode 0x007322B3#32 = .ok (.slt 5 6 7) ∧
    decode 0x007332B3#32 = .ok (.sltu 5 6 7) ∧
    decode 0x007342B3#32 = .ok (.xor 5 6 7) ∧
    decode 0x007352B3#32 = .ok (.srl 5 6 7) ∧
    decode 0x407352B3#32 = .ok (.sra 5 6 7) ∧
    decode 0x007362B3#32 = .ok (.or 5 6 7) ∧
    decode 0x007372B3#32 = .ok (.and 5 6 7) := by decide

theorem test_decode_muldiv :
    decode 0x027302B3#32 = .ok (.mul 5 6 7) ∧
    decode 0x027312B3#32 = .ok (.mulh 5 6 7) ∧
    decode 0x027322B3#32 = .ok (.mulhsu 5 6 7) ∧
    decode 0x027332B3#32 = .ok (.mulhu 5 6 7) ∧
    decode 0x027342B3#32 = .ok (.div 5 6 7) ∧
    decode 0x027352B3#32 = .ok (.divu 5 6 7) ∧
    decode 0x027362B3#32 = .ok (.rem 5 6 7) ∧
    decode 0x027372B3#32 = .ok (.remu 5 6 7) := by decide

theorem test_decode_alu_i :
    decode 0xFFD30293#32 = .ok (.addi 5 6 0xFFFFFFFD#32) ∧
    decode 0xFFD32293#32 = .ok (.slti 5 6 0xFFFFFFFD#32) ∧
    decode 0xFFD33293#32 = .ok (.sltiu 5 6 0xFFFFFFFD#32) ∧
    decode 0xFFD34293#32 = .ok (.xori 5 6 0xFFFFFFFD#32) ∧
    decode 0xFFD36293#32 = .ok (.ori 5 6 0xFFFFFFFD#32) ∧
    decode 0xFFD37293#32 = .ok (.andi 5 6 0xFFFFFFFD#32) ∧
    decode 0x00931293#32 = .ok (.slli 5 6 9#5) ∧
    decode 0x00935293#32 = .ok (.srli 5 6 9#5) ∧
    decode 0x40935293#32 = .ok (.srai 5 6 9#5) := by decide

theorem test_decode_load_store :
    decode 0xFFC30283#32 = .ok (.lb 5 6 0xFFFFFFFC#32) ∧
    decode 0xFFC31283#32 = .ok (.lh 5 6 0xFFFFFFFC#32) ∧
    decode 0xFFC32283#32 = .ok (.lw 5 6 0xFFFFFFFC#32) ∧
    decode 0xFFC34283#32 = .ok (.lbu 5 6 0xFFFFFFFC#32) ∧
    decode 0xFFC35283#32 = .ok (.lhu 5 6 0xFFFFFFFC#32) ∧
    decode 0xFE730E23#32 = .ok (.sb 6 7 0xFFFFFFFC#32) ∧
    decode 0xFE731E23#32 = .ok (.sh 6 7 0xFFFFFFFC#32) ∧
    decode 0xFE732E23#32 = .ok (.sw 6 7 0xFFFFFFFC#32) := by decide

theorem test_decode_branch :
    decode 0xFE730CE3#32 = .ok (.beq 6 7 0xFFFFFFF8#32) ∧
    decode 0xFE731CE3#32 = .ok (.bne 6 7 0xFFFFFFF8#32) ∧
    decode 0xFE734CE3#32 = .ok (.blt 6 7 0xFFFFFFF8#32) ∧
    decode 0xFE735CE3#32 = .ok (.bge 6 7 0xFFFFFFF8#32) ∧
    decode 0xFE736CE3#32 = .ok (.bltu 6 7 0xFFFFFFF8#32) ∧
    decode 0xFE737CE3#32 = .ok (.bgeu 6 7 0xFFFFFFF8#32) ∧
    decode 0x00730863#32 = .ok (.beq 6 7 16#32) ∧
    decode 0x00731863#32 = .ok (.bne 6 7 16#32) ∧
    decode 0x00734863#32 = .ok (.blt 6 7 16#32) ∧
    decode 0x00735863#32 = .ok (.bge 6 7 16#32) ∧
    decode 0x00736863#32 = .ok (.bltu 6 7 16#32) ∧
    decode 0x00737863#32 = .ok (.bgeu 6 7 16#32) := by decide

theorem test_decode_jump_upper_system :
    decode 0xABCDE2B7#32 = .ok (.lui 5 0xABCDE000#32) ∧
    decode 0xABCDE297#32 = .ok (.auipc 5 0xABCDE000#32) ∧
    decode 0xFF1FF0EF#32 = .ok (.jal 1 0xFFFFFFF0#32) ∧
    decode 0x008000EF#32 = .ok (.jal 1 8#32) ∧
    decode 0xFFC300E7#32 = .ok (.jalr 1 6 0xFFFFFFFC#32) ∧
    decode 0x00008067#32 = .ok (.jalr 0 1 0#32) ∧
    decode 0x00000073#32 = .ok (.ecall) ∧
    decode 0x00100073#32 = .ok (.ebreak) := by decide

/-- Words that exercise every scattered immediate bit (2.1). -/
theorem test_decode_immediates :
    decode 0xFFF00013#32 = .ok (.addi 0 0 0xFFFFFFFF#32) ∧
    decode 0x7FF00013#32 = .ok (.addi 0 0 2047#32) ∧
    decode 0x80000063#32 = .ok (.beq 0 0 0xFFFFF000#32) ∧
    decode 0xFF5FF06F#32 = .ok (.jal 0 0xFFFFFFF4#32) ∧
    decode 0x800000EF#32 = .ok (.jal 1 0xFFF00000#32) ∧
    decode 0xFE029CE3#32 = .ok (.bne 5 0 0xFFFFFFF8#32) ∧
    decode 0x80000023#32 = .ok (.sb 0 0 0xFFFFF800#32) ∧
    decode 0x00000FA3#32 = .ok (.sb 0 0 31#32) := by decide

/-- The single-bit probes of 2.1. -/
theorem test_immediate_probes :
    immB 0x80000000#32 = 0xFFFFF000#32 ∧ immB 0x00000080#32 = 0x00000800#32 ∧
    immB 0x7E000000#32 = 0x000007E0#32 ∧ immB 0x00000F00#32 = 0x0000001E#32 ∧
    immJ 0x80000000#32 = 0xFFF00000#32 ∧ immJ 0x000FF000#32 = 0x000FF000#32 ∧
    immJ 0x00100000#32 = 0x00000800#32 ∧ immJ 0x7FE00000#32 = 0x000007FE#32 ∧
    immS 0x7E000000#32 = 0x000007E0#32 ∧ immS 0x00000F80#32 = 0x0000001F#32 := by decide

/-- Illegal words (2.10), one or more for each case of 30_encoding.md R80. -/
theorem test_illegal_words :
    decode 0x00000000#32 = .error .unknownOpcode ∧ decode 0x0FF0000F#32 = .error .unknownOpcode ∧
    decode 0x00004501#32 = .error .unknownOpcode ∧ decode 0x40001033#32 = .error .opFunc ∧
    decode 0x42000033#32 = .error .opFunc ∧ decode 0x04000033#32 = .error .opFunc ∧
    decode 0x02001013#32 = .error .shiftFunc7 ∧ decode 0x40001013#32 = .error .shiftFunc7 ∧
    decode 0x20005013#32 = .error .shiftFunc7 ∧ decode 0x00003003#32 = .error .loadWidth ∧
    decode 0x00007003#32 = .error .loadWidth ∧ decode 0x00003023#32 = .error .storeWidth ∧
    decode 0x00002063#32 = .error .branchCond ∧ decode 0x00001067#32 = .error .jalrFunc3 ∧
    decode 0x00001073#32 = .error .systemWord ∧ decode 0x30200073#32 = .error .systemWord ∧
    decode 0x00200073#32 = .error .systemWord ∧ decode 0x00000173#32 = .error .systemWord ∧
    decode 0x00008073#32 = .error .systemWord := by decide

/-- The legal look-alikes of 2.10. -/
theorem test_legal_lookalikes :
    decode 0x40000013#32 = .ok (.addi 0 0 1024#32) ∧ decode 0x40005013#32 = .ok (.srai 0 0 0#5) ∧
    decode 0x00000013#32 = .ok (.addi 0 0 0#32) := by decide

/-- Bytes in Memory's order; a short sequence is no word. -/
theorem test_decode_bytes :
    decodeBytes [0xB3, 0x81, 0x20, 0x00, 0xAA] = .ok (.add 3 1 2, [0xAA]) ∧
    decodeBytes [0xB3, 0x81, 0x20] = .error .truncated ∧
    decodeTableWord 32 0x002081B3 = some (.add 3 1 2) ∧ decodeTableWord 32 0 = none := by decide

/-- The source's two written forms (30_encoding.md R83). -/
theorem test_asm : asm (.add 3 1 2) = "ADD x3, x1, x2" ∧ asm (.jal 1 8#32) = "JAL x1, 8" := by decide

/-! ## ALU and multiply/divide: one step, x5 from a in x6 and b in x7 (2.3 to 2.5) -/

theorem test_add :
    x5 0x007302B3#32 0x7FFFFFFF#32 0x00000001#32 = some 0x80000000#32 ∧
    x5 0x007302B3#32 0xFFFFFFFF#32 0x00000001#32 = some 0x00000000#32 := by decide

theorem test_sub :
    x5 0x407302B3#32 0x80000000#32 0x00000001#32 = some 0x7FFFFFFF#32 ∧
    x5 0x407302B3#32 0x00000000#32 0x00000001#32 = some 0xFFFFFFFF#32 := by decide

theorem test_sll :
    x5 0x007312B3#32 0x12345678#32 0x00000024#32 = some 0x23456780#32 ∧
    x5 0x007312B3#32 0x80000001#32 0x00000001#32 = some 0x00000002#32 := by decide

theorem test_slt :
    x5 0x007322B3#32 0x80000000#32 0x7FFFFFFF#32 = some 0x00000001#32 ∧
    x5 0x007322B3#32 0x00000000#32 0xFFFFFFFF#32 = some 0x00000000#32 := by decide

theorem test_sltu :
    x5 0x007332B3#32 0x80000000#32 0x7FFFFFFF#32 = some 0x00000000#32 ∧
    x5 0x007332B3#32 0x00000000#32 0xFFFFFFFF#32 = some 0x00000001#32 := by decide

theorem test_xor :
    x5 0x007342B3#32 0xFF00FF00#32 0x0FF00FF0#32 = some 0xF0F0F0F0#32 := by decide

theorem test_srl :
    x5 0x007352B3#32 0xF0000000#32 0x00000004#32 = some 0x0F000000#32 ∧
    x5 0x007352B3#32 0x80000000#32 0x00000020#32 = some 0x80000000#32 := by decide

theorem test_sra :
    x5 0x407352B3#32 0x80000000#32 0x00000021#32 = some 0xC0000000#32 ∧
    x5 0x407352B3#32 0x7FFFFFFF#32 0x0000001F#32 = some 0x00000000#32 := by decide

theorem test_or :
    x5 0x007362B3#32 0xFF00FF00#32 0x0FF00FF0#32 = some 0xFFF0FFF0#32 := by decide

theorem test_and :
    x5 0x007372B3#32 0xFF00FF00#32 0x0FF00FF0#32 = some 0x0F000F00#32 := by decide

theorem test_addi :
    x5 0xFFD30293#32 0x00000005#32 0x00000000#32 = some 0x00000002#32 ∧
    x5 0x80030293#32 0x00000000#32 0x00000000#32 = some 0xFFFFF800#32 := by decide

theorem test_slti :
    x5 0xFFF32293#32 0xFFFFFFFE#32 0x00000000#32 = some 0x00000001#32 ∧
    x5 0xFFF32293#32 0x00000000#32 0x00000000#32 = some 0x00000000#32 := by decide

theorem test_sltiu :
    x5 0xFFF33293#32 0x00000000#32 0x00000000#32 = some 0x00000001#32 ∧
    x5 0x80033293#32 0xFFFFF7FF#32 0x00000000#32 = some 0x00000001#32 := by decide

theorem test_xori :
    x5 0xFFF34293#32 0x12345678#32 0x00000000#32 = some 0xEDCBA987#32 := by decide

theorem test_ori :
    x5 0x0FF36293#32 0x12345678#32 0x00000000#32 = some 0x123456FF#32 ∧
    x5 0x80036293#32 0x00000000#32 0x00000000#32 = some 0xFFFFF800#32 := by decide

theorem test_andi :
    x5 0xF0037293#32 0x12345678#32 0x00000000#32 = some 0x12345600#32 ∧
    x5 0x0FF37293#32 0x12345678#32 0x00000000#32 = some 0x00000078#32 := by decide

theorem test_slli :
    x5 0x01F31293#32 0x00000001#32 0x00000000#32 = some 0x80000000#32 ∧
    x5 0x00431293#32 0xFFFFFFFF#32 0x00000000#32 = some 0xFFFFFFF0#32 := by decide

theorem test_srli :
    x5 0x01F35293#32 0x80000000#32 0x00000000#32 = some 0x00000001#32 ∧
    x5 0x00435293#32 0xFFFFFFFF#32 0x00000000#32 = some 0x0FFFFFFF#32 := by decide

theorem test_srai :
    x5 0x40435293#32 0xFFFFFF00#32 0x00000000#32 = some 0xFFFFFFF0#32 ∧
    x5 0x40435293#32 0x7FFFFF00#32 0x00000000#32 = some 0x07FFFFF0#32 := by decide

theorem test_mul :
    x5 0x027302B3#32 0x12345678#32 0x9ABCDEF0#32 = some 0x242D2080#32 ∧
    x5 0x027302B3#32 0x7FFFFFFF#32 0xFFFFFFFF#32 = some 0x80000001#32 := by decide

theorem test_mulh :
    x5 0x027312B3#32 0x12345678#32 0x9ABCDEF0#32 = some 0xF8CC93D6#32 ∧
    x5 0x027312B3#32 0x7FFFFFFF#32 0xFFFFFFFF#32 = some 0xFFFFFFFF#32 := by decide

theorem test_mulhsu :
    x5 0x027322B3#32 0x12345678#32 0x9ABCDEF0#32 = some 0x0B00EA4E#32 ∧
    x5 0x027322B3#32 0x7FFFFFFF#32 0xFFFFFFFF#32 = some 0x7FFFFFFE#32 := by decide

theorem test_mulhu :
    x5 0x027332B3#32 0x12345678#32 0x9ABCDEF0#32 = some 0x0B00EA4E#32 ∧
    x5 0x027332B3#32 0x7FFFFFFF#32 0xFFFFFFFF#32 = some 0x7FFFFFFE#32 := by decide

theorem test_div :
    x5 0x027342B3#32 0xFFFFFFF9#32 0x00000003#32 = some 0xFFFFFFFE#32 ∧
    x5 0x027342B3#32 0x80000000#32 0xFFFFFFFF#32 = some 0x80000000#32 ∧
    x5 0x027342B3#32 0x00000005#32 0x00000000#32 = some 0xFFFFFFFF#32 := by decide

theorem test_divu :
    x5 0x027352B3#32 0xFFFFFFF9#32 0x00000003#32 = some 0x55555553#32 ∧
    x5 0x027352B3#32 0x00000005#32 0x00000000#32 = some 0xFFFFFFFF#32 := by decide

theorem test_rem :
    x5 0x027362B3#32 0xFFFFFFF9#32 0xFFFFFFFD#32 = some 0xFFFFFFFF#32 ∧
    x5 0x027362B3#32 0x80000000#32 0xFFFFFFFF#32 = some 0x00000000#32 ∧
    x5 0x027362B3#32 0x00000005#32 0x00000000#32 = some 0x00000005#32 := by decide

theorem test_remu :
    x5 0x027372B3#32 0xFFFFFFF9#32 0xFFFFFFFD#32 = some 0xFFFFFFF9#32 ∧
    x5 0x027372B3#32 0x80000000#32 0x00000000#32 = some 0x80000000#32 := by decide

/-- `ADD x0, x6, x7` writes nothing; `ADD x5, x5, x5` reads before it writes (2.3). -/
theorem test_add_corners :
    regAfter 0 (at_ 0#32 0x00730033#32 5#32 7#32) = some 0#32 ∧
    regAfter 5 ((at_ 0#32 0x005282B3#32 0#32 0#32).setX 5 0x80000001#32) = some 2#32 := by decide

/-! ## Loads and stores (2.6) -/

theorem test_lb :
    regAfter 5 (memState 0xFFC30283#32) = some 0xFFFFFFEF#32 := by decide

theorem test_lbu :
    regAfter 5 (memState 0xFFC34283#32) = some 0x000000EF#32 := by decide

theorem test_lh :
    regAfter 5 (memState 0xFFC31283#32) = some 0xFFFFBEEF#32 ∧
    regAfter 5 (memState 0xFFF31283#32) = some 0x000078DE#32 := by decide

theorem test_lhu :
    regAfter 5 (memState 0xFFC35283#32) = some 0x0000BEEF#32 ∧
    regAfter 5 (memState 0xFFE35283#32) = some 0x0000DEAD#32 := by decide

theorem test_lw :
    regAfter 5 (memState 0xFFC32283#32) = some 0xDEADBEEF#32 ∧
    regAfter 5 (memState 0xFFD32283#32) = some 0x78DEADBE#32 := by decide

theorem test_sb :
    word100 0xFE730E23#32 = some 0xDEADBEDD#32 := by decide

theorem test_sh :
    word100 0xFE731E23#32 = some 0xDEADCCDD#32 := by decide

theorem test_sw :
    word100 0xFE732E23#32 = some 0xAABBCCDD#32 ∧
    word100 0xFE732EA3#32 = some 0xBBCCDDEF#32 := by decide

/-- A store half out of range faults and writes nothing; the last two bytes can be stored to. -/
theorem test_store_edge :
    step (at_ 0#32 0x00732023#32 0x00000FFE#32 0xAABBCCDD#32) =
      .fault (.raised (.illegalMemoryAccess 0#32 0x00000FFE#32 4 .store)
        { at_ 0#32 0x00732023#32 0x00000FFE#32 0xAABBCCDD#32 with
          status := .faulted (.illegalMemoryAccess 0#32 0x00000FFE#32 4 .store) }) ∧
    (next? (step (at_ 0#32 0x00731023#32 0x00000FFE#32 0xAABBCCDD#32))).map (·.halfAt 0xFFE) =
      some 0xCCDD#16 := ⟨rfl, by decide⟩

/-- A load out of range faults, also with rd = x0 and also when the address wraps. -/
theorem test_load_edge :
    causeOf (step (at_ 0#32 0xFFC02283#32 0#32 0#32)) =
      some (.illegalMemoryAccess 0#32 0xFFFFFFFC#32 4 .load) ∧
    causeOf (step (at_ 0#32 0x00030003#32 0x00001000#32 0#32)) =
      some (.illegalMemoryAccess 0#32 0x00001000#32 1 .load) ∧
    causeOf (step (at_ 0#32 0x00031283#32 0x00000FFF#32 0#32)) =
      some (.illegalMemoryAccess 0#32 0x00000FFF#32 2 .load) ∧
    x5 0x00030283#32 0x00000FFF#32 0#32 = some 0#32 := by decide

/-! ## Branches, jumps, large immediates (2.7, 2.8) -/

theorem test_beq :
    pcOf 0x20#32 0x00730863#32 0x00000009#32 0x00000009#32 = some 0x30#32 ∧
    pcOf 0x20#32 0x00730863#32 0x00000009#32 0x00000008#32 = some 0x24#32 := by decide

theorem test_bne :
    pcOf 0x20#32 0x00731863#32 0x00000009#32 0x00000009#32 = some 0x24#32 ∧
    pcOf 0x20#32 0x00731863#32 0x00000009#32 0x00000008#32 = some 0x30#32 := by decide

theorem test_blt :
    pcOf 0x20#32 0x00734863#32 0x80000000#32 0x7FFFFFFF#32 = some 0x30#32 ∧
    pcOf 0x20#32 0x00734863#32 0x00000000#32 0xFFFFFFFF#32 = some 0x24#32 := by decide

theorem test_bge :
    pcOf 0x20#32 0x00735863#32 0x00000009#32 0x00000009#32 = some 0x30#32 ∧
    pcOf 0x20#32 0x00735863#32 0xFFFFFFFF#32 0x00000000#32 = some 0x24#32 := by decide

theorem test_bltu :
    pcOf 0x20#32 0x00736863#32 0x80000000#32 0x7FFFFFFF#32 = some 0x24#32 ∧
    pcOf 0x20#32 0x00736863#32 0x00000000#32 0xFFFFFFFF#32 = some 0x30#32 := by decide

theorem test_bgeu :
    pcOf 0x20#32 0x00737863#32 0x00000009#32 0x00000009#32 = some 0x30#32 ∧
    pcOf 0x20#32 0x00737863#32 0x00000000#32 0xFFFFFFFF#32 = some 0x24#32 := by decide

/-- A target outside Memory is reached; one that is 2 modulo 4 is too (decisions D6, D7). -/
theorem test_branch_targets :
    pcOf 0x20#32 0x80000063#32 0#32 0#32 = some 0xFFFFF020#32 ∧
    pcOf 0x20#32 0x7E000FE3#32 0#32 0#32 = some 0x0000101E#32 ∧
    pcOf 0x20#32 0x00000063#32 0#32 0#32 = some 0x20#32 := by decide

theorem test_jal :
    pcOf 0x64#32 0x008000EF#32 0#32 0#32 = some 0x6C#32 ∧
    regAfter 1 (at_ 0x64#32 0x008000EF#32 0#32 0#32) = some 0x68#32 := by decide

theorem test_jal_wraps : pcOf 0x8#32 0xFF1FF0EF#32 0#32 0#32 = some 0xFFFFFFF8#32 := by decide

theorem test_jalr :
    pcOf 0x40#32 0xFFC300E7#32 2#32 0#32 = some 0xFFFFFFFE#32 ∧
    pcOf 0x40#32 0x001300E7#32 0x100#32 0#32 = some 0x100#32 := by decide

/-- rd = rs1: the target uses the old register (90_conflicts.md C9). -/
theorem test_jalr_same_register :
    (next? (step ((at_ 0x40#32 0x007282E7#32 0#32 0#32).setX 5 0x201#32))).map
      (fun t => (t.pc, t.x 5)) = some (0x208#32, 0x44#32) := by decide

theorem test_lui : x5 0xABCDE2B7#32 0#32 0#32 = some 0xABCDE000#32 := by decide

/-- By hand from R201: 0xFF0 + 0xABCDE000, and 0xFF0 + 0xFFFFF000 modulo 2^32. -/
theorem test_auipc :
    regAfter 5 (at_ 0xFF0#32 0xABCDE297#32 0#32 0#32) = some 0xABCDEFF0#32 ∧
    regAfter 5 (at_ 0xFF0#32 0xFFFFF297#32 0#32 0#32) = some 0xFFFFFFF0#32 := by decide

/-! ## ECALL and EBREAK (2.9) -/

theorem test_ecall_print :
    (next? (step (callState 64#32 1#32 0x200#32 3#32))).map (fun t => (t.trace, t.pc, t.x 10)) =
      some ([⟨1#32, [0x48, 0x69, 0x0A]⟩], 0x14#32, 1#32) := by decide

/-- A length of 0 reads nothing; a buffer past the end faults. -/
theorem test_ecall_print_edge :
    (next? (step (callState 64#32 1#32 0xFFFFFFFF#32 0#32))).map (·.trace) = some [⟨1#32, []⟩] ∧
    causeOf (step (callState 64#32 1#32 0xFFE#32 4#32)) =
      some (.illegalMemoryAccess 0x10#32 0x00000FFE#32 4 .syscall) := by decide

theorem test_ecall_exit :
    (next? (step (callState 93#32 0xFFFFFFFF#32 0#32 0#32))).map (fun t => (t.status, t.pc)) =
      some (.exited 0xFFFFFFFF#32, 0x10#32) := by decide

theorem test_ecall_halt :
    (next? (step (callState 0#32 0#32 0#32 0#32))).map (fun t => (t.status, t.pc)) =
      some (.halted, 0x10#32) := by decide

theorem test_ecall_other :
    (next? (step (callState 0x140#32 1#32 0x200#32 3#32))).map (fun t => (t.status, t.pc, t.trace)) =
      some (.running, 0x14#32, []) := by decide

theorem test_ebreak : pcOf 0x10#32 0x00100073#32 0#32 0#32 = some 0x14#32 := by decide

/-! ## Faults, reset and the host's two definitions -/

/-- FENCE's word (95_test_vectors.md P4). -/
theorem test_illegal_word_faults :
    causeOf (step (at_ 4#32 0x0FF0000F#32 0#32 0#32)) = some (.illegalInstruction 4#32 0x0FF0000F#32) := by
  decide

/-- The fetch at 0xFFE faults whatever bytes lie there (2.10, priority). -/
theorem test_fetch_edge :
    causeOf (step { start with pc := 0xFFE#32 }) =
      some (.illegalMemoryAccess 0xFFE#32 0xFFE#32 4 .fetch) := by decide

/-- The instruction of withFetchWord is the first to run after reset. -/
theorem test_withFetchWord :
    (next? (step (State.reset.withFetchWord 32 0x00100293))).map (fun t => (t.x 5, t.pc)) =
      some (1#32, 4#32) := by decide

/-- Memory of all zeros decodes to no instruction (log 6). -/
theorem test_first_step_from_reset :
    causeOf (step State.reset) = some (.illegalInstruction 0#32 0#32) := by decide

/-- A MEM_SIZE of 0 or above 2^32 is refused. -/
theorem test_mem_size :
    Config.ofMemSize 0#32 0 = none ∧ Config.ofMemSize 0#32 (2 ^ 32 + 1) = none ∧
    Config.ofMemSize 0#32 (2 ^ 32) = some Config.default := by decide

/-- Writing what an unlisted address reads as removes the entry. -/
theorem test_memory_canonical :
    (Memory.setByte [] 5 7).setByte 5 0 = [] ∧
    ((Memory.setByte [] 5 7).setByte 3 9).wf = true ∧ Memory.wf [(5, 7), (3, 9)] = false := by decide

/-! ## Witnesses: a state and operands that meet a statement's hypotheses, clause by clause -/

/-- OpRowsOfTheTable: a word of 95_test_vectors.md 2.2 with the bits of each row. -/
theorem witness_OpRowsOfTheTable :
    ([(0x007302B3#32, 0x00000033#32), (0x407302B3#32, 0x40000033#32), (0x007312B3#32, 0x00001033#32),
      (0x007322B3#32, 0x00002033#32), (0x007332B3#32, 0x00003033#32), (0x007342B3#32, 0x00004033#32),
      (0x007352B3#32, 0x00005033#32), (0x407352B3#32, 0x40005033#32), (0x007362B3#32, 0x00006033#32),
      (0x007372B3#32, 0x00007033#32), (0x027302B3#32, 0x02000033#32), (0x027312B3#32, 0x02001033#32),
      (0x027322B3#32, 0x02002033#32), (0x027332B3#32, 0x02003033#32), (0x027342B3#32, 0x02004033#32),
      (0x027352B3#32, 0x02005033#32), (0x027362B3#32, 0x02006033#32), (0x027372B3#32, 0x02007033#32)] : List (Word × Word)).all
      (fun c => c.1 &&& 0xFE00707F#32 = c.2) = true := by decide

/-- ImmediateRowsOfTheTable: the shifts and the others. -/
theorem witness_ImmediateRowsOfTheTable :
    ([(0x00931293#32, 0x00001013#32), (0x00935293#32, 0x00005013#32), (0x40935293#32, 0x40005013#32)] : List (Word × Word)).all
      (fun c => c.1 &&& 0xFE00707F#32 = c.2) = true ∧
    ([(0xFFD30293#32, 0x00000013#32), (0xFFD32293#32, 0x00002013#32), (0xFFD33293#32, 0x00003013#32),
      (0xFFD34293#32, 0x00004013#32), (0xFFD36293#32, 0x00006013#32), (0xFFD37293#32, 0x00007013#32),
      (0xFFC30283#32, 0x00000003#32), (0xFFC31283#32, 0x00001003#32), (0xFFC32283#32, 0x00002003#32),
      (0xFFC34283#32, 0x00004003#32), (0xFFC35283#32, 0x00005003#32), (0xFFC300E7#32, 0x00000067#32)] : List (Word × Word)).all
      (fun c => c.1 &&& 0x0000707F#32 = c.2) = true := by decide

/-- StoreBranchAndUpperRowsOfTheTable, and the words of JalLinksAndJumps, LuiLoadsTheUpperBits and
AuipcAddsThePc. -/
theorem witness_StoreBranchAndUpperRowsOfTheTable :
    ([(0xFE730E23#32, 0x00000023#32), (0xFE731E23#32, 0x00001023#32), (0xFE732E23#32, 0x00002023#32),
      (0xFE730CE3#32, 0x00000063#32), (0xFE731CE3#32, 0x00001063#32), (0xFE734CE3#32, 0x00004063#32),
      (0xFE735CE3#32, 0x00005063#32), (0xFE736CE3#32, 0x00006063#32), (0xFE737CE3#32, 0x00007063#32)] : List (Word × Word)).all
      (fun c => c.1 &&& 0x0000707F#32 = c.2) = true ∧
    ([(0xABCDE2B7#32, 0x00000037#32), (0xABCDE297#32, 0x00000017#32), (0xFF1FF0EF#32, 0x0000006F#32)] : List (Word × Word)).all
      (fun c => c.1 &&& 0x0000007F#32 = c.2) = true := by decide

/-- DecodeOfEncodeIsTheInstruction: the ends of every immediate's range. -/
theorem witness_wellFormed :
    (Instr.addi 31 31 0xFFFFF800#32).wf = true ∧ (Instr.sw 31 31 2047#32).wf = true ∧
    (Instr.beq 31 31 0xFFFFF000#32).wf = true ∧ (Instr.bgeu 31 31 4094#32).wf = true ∧
    (Instr.jal 31 0xFFF00000#32).wf = true ∧ (Instr.jal 31 0x000FFFFE#32).wf = true ∧
    (Instr.lui 31 0xFFFFF000#32).wf = true ∧ (Instr.srai 31 31 31#5).wf = true ∧
    Instr.ecall.wf = true := by decide

theorem witness_EncodeOfDecodeIsTheWord : decode 0xFF1FF0EF#32 = .ok (.jal 1 0xFFFFFFF0#32) := by decide

/-- The last word of Memory. -/
def lastWord : State := at_ 0xFFC#32 0x007302B3#32 5#32 7#32

theorem witness_StepRunsTheDecodedInstruction :
    lastWord.status = .running ∧ lastWord.pc.toNat + 4 = lastWord.config.memSize ∧
    decode (lastWord.wordAt lastWord.pc.toNat) = .ok (.add 5 6 7) := by decide

theorem witness_FetchOutOfRangeFaults :
    ({ start with pc := 0xFFD#32 } : State).status = .running ∧
    start.config.memSize + 1 = ({ start with pc := 0xFFD#32 } : State).pc.toNat + 4 := by decide

theorem witness_IllegalWordFaults :
    start.status = .running ∧ start.pc.toNat + 4 ≤ start.config.memSize ∧
    decode (start.wordAt start.pc.toNat) = .error .unknownOpcode := by decide

theorem witness_StoppedCoreHasNoStep :
    ({ start with status := .exited 0#32 } : State).status ≠ .running ∧
    ({ start with status := .faulted (.illegalInstruction 0#32 0#32) } : State).status ≠ .running := by
  decide

/-- Both forms of the cause. -/
theorem witness_FaultsArePreciseAndFinal :
    (∃ t, step start = .fault (.raised (.illegalInstruction 0#32 0#32) t)) ∧
    ∃ t, step { start with pc := 0xFFD#32 } =
      .fault (.raised (.illegalMemoryAccess 0xFFD#32 0xFFD#32 4 .fetch) t) := ⟨⟨_, rfl⟩, ⟨_, rfl⟩⟩

/-- StepKeepsTheInvariant, EvenPcStaysEven, ParametersNeverChange, OnlyEcallEndsTheRunOrPrints and
TheTraceIsNeverRead, and the steps of the other rules about every step: an ADD, a store, a branch, a JALR and the four kinds of
ECALL; the pc of each is even. -/
theorem witness_steps :
    (lastWord.inv = true ∧ lastWord.pc.toNat % 2 = 0 ∧ ∃ t, step lastWord = .next t) ∧
    (∃ t, step (memState 0xFE732E23#32) = .next t) ∧
    (∃ t, step (at_ 0x20#32 0x00730863#32 9#32 9#32) = .next t) ∧
    (∃ t, step (at_ 0x40#32 0xFFC300E7#32 2#32 0#32) = .next t) ∧
    (∃ t, step (callState 64#32 1#32 0x200#32 3#32) = .next t) ∧
    (∃ t, step (callState 93#32 2#32 0#32 0#32) = .next t) ∧
    (∃ t, step (callState 0#32 0#32 0#32 0#32) = .next t) ∧
    (∃ t, step (callState 1#32 0#32 0#32 0#32) = .next t) :=
  ⟨⟨by decide, by decide, _, rfl⟩, ⟨_, rfl⟩, ⟨_, rfl⟩, ⟨_, rfl⟩, ⟨_, rfl⟩, ⟨_, rfl⟩, ⟨_, rfl⟩, ⟨_, rfl⟩⟩

/-- OnlyStoresWriteMemory, OnlyTransfersSetThePc: an ADD is neither; it decodes at the pc. -/
theorem witness_neitherStoreNorTransfer :
    decode (lastWord.wordAt lastWord.pc.toNat) = .ok (.add 5 6 7) ∧
    (Instr.add 5 6 7).isStore = false ∧ (Instr.add 5 6 7).isTransfer = false := by decide

/-- OnlyTransfersSetThePc where the run ends, AtMostOneRegisterIsWritten for an instruction that writes none. -/
theorem witness_call :
    decode ((callState 93#32 2#32 0#32 0#32).wordAt (callState 93#32 2#32 0#32 0#32).pc.toNat) =
      .ok .ecall ∧ Instr.ecall.isTransfer = false := by decide

/-- AtMostOneRegisterIsWritten for a store and a branch. -/
theorem witness_storeAndBranch :
    decode ((memState 0xFE732E23#32).wordAt (memState 0xFE732E23#32).pc.toNat) =
      .ok (.sw 6 7 0xFFFFFFFC#32) ∧ (Instr.sw 6 7 0xFFFFFFFC#32).isStore = true ∧
    decode ((at_ 0x20#32 0x00730863#32 9#32 9#32).wordAt (at_ 0x20#32 0x00730863#32 9#32 9#32).pc.toNat) =
      .ok (.beq 6 7 16#32) := by decide

/-- EveryReachedStateMeetsTheInvariant: a boot with an ADDI at the reset address, and the state after it. -/
theorem witness_EveryReachedStateMeetsTheInvariant :
    let k : Config := ⟨8#32, 0xFFF#32⟩
    let m : Memory := [(8, 0x93), (9, 0x02), (10, 0x10)]
    m.wf = true ∧ (∀ c ∈ m, c.1 < k.memSize) ∧ ∃ t, Reaches (State.boot k m) t ∧ t.x 5 = 1#32 :=
  ⟨by decide, by decide, _, .step .refl rfl, by decide⟩

/-- RegisterZeroIsHardwired, QuotientAndRemainderRebuildTheDividend, StoreThenLoadReturnsTheValue,
CallAndLoadAddressReachTheOffset: a register that is not x0, and another. -/
theorem witness_RegisterZeroIsHardwired : (31 : Reg) ≠ 0 ∧ (1 : Reg) ≠ 31 := by decide

/-- AddAndSubtractWrap: sums and differences at both ends of the signed range. -/
theorem witness_AddAndSubtractWrap :
    (0x7FFFFFFE#32).toInt + (1#32).toInt = 2 ^ 31 - 1 ∧
    (0x80000001#32).toInt + (0xFFFFFFFF#32).toInt = -2 ^ 31 ∧
    (0x7FFFFFFE#32).toInt - (0xFFFFFFFF#32).toInt = 2 ^ 31 - 1 ∧
    (0x80000001#32).toInt - (1#32).toInt = -2 ^ 31 ∧
    (0xFFFFFFFE#32).toNat + (1#32).toNat = 2 ^ 32 - 1 ∧ (7#32).toNat ≤ (7#32).toNat := by decide

/-- SignedDivisionTruncates, and DivisionNeverRaises away from the corners: INT32_MIN by 1, and 1 by -1. -/
theorem witness_division :
    ((at_ 0#32 0#32 0x80000000#32 1#32).x 7 ≠ 0#32 ∧
      ¬ ((at_ 0#32 0#32 0x80000000#32 1#32).x 6 = 0x80000000#32 ∧
        (at_ 0#32 0#32 0x80000000#32 1#32).x 7 = 0xFFFFFFFF#32)) ∧
    ((at_ 0#32 0#32 1#32 0xFFFFFFFF#32).x 7 ≠ 0#32 ∧
      ¬ ((at_ 0#32 0#32 1#32 0xFFFFFFFF#32).x 6 = 0x80000000#32 ∧
        (at_ 0#32 0#32 1#32 0xFFFFFFFF#32).x 7 = 0xFFFFFFFF#32)) := by decide

/-- DivisionNeverRaises: a zero divisor, and the overflow pair. -/
theorem witness_DivisionNeverRaises :
    (at_ 0#32 0#32 5#32 0#32).x 7 = 0#32 ∧
    (at_ 0#32 0#32 0x80000000#32 0xFFFFFFFF#32).x 6 = 0x80000000#32 ∧
    (at_ 0#32 0#32 0x80000000#32 0xFFFFFFFF#32).x 7 = 0xFFFFFFFF#32 := by decide

/-- The loads, the stores, MemRead, MemWrite and a store then a load: accesses of 1, 2 and 4 bytes that end at MEM_SIZE,
on a memory in canonical form, and the ones a byte further on. -/
theorem witness_accesses :
    let s := at_ 0#32 0#32 0xFFF#32 7#32
    let t := at_ 0#32 0#32 0xFFC#32 7#32
    s.mem.wf = true ∧ t.mem.wf = true ∧
    (s.x 6 + 0#32).toNat + 1 = s.config.memSize ∧ s.config.memSize + 1 = (s.x 6 + 1#32).toNat + 1 ∧
    (t.x 6 + 2#32).toNat + 2 = t.config.memSize ∧ t.config.memSize + 1 = (t.x 6 + 3#32).toNat + 2 ∧
    (t.x 6 + 0#32).toNat + 4 = t.config.memSize ∧ t.config.memSize + 1 = (t.x 6 + 1#32).toNat + 4 ∧
    (5 : Reg) ≠ 0 := by decide

/-- The same at MEM_SIZE = 2^32, where nothing wraps (20_memory.md R42). -/
theorem witness_access_at_the_top :
    (0xFFFFFFFC#32).toNat + 4 = State.reset.config.memSize ∧
    State.reset.config.memSize < (0xFFFFFFFE#32).toNat + 4 := by decide

theorem witness_MixedWidthsSeeBytes :
    start.mem.wf = true ∧ ∃ t, memWrite start 0xFFC#32 4 0x11223344#32 = some t := ⟨by decide, _, rfl⟩

/-- NextFetchSeesTheStore: SW x7, 0(x6) at 0 stores the word of an EBREAK at 4. -/
theorem witness_NextFetchSeesTheStore :
    let s := at_ 0#32 0x00732023#32 4#32 0x00100073#32
    s.status = .running ∧ s.mem.wf = true ∧ s.x 6 + 0#32 = s.pc + 4#32 ∧
    (s.pc + 4#32).toNat + 4 ≤ s.config.memSize ∧ decode (s.x 7) = .ok .ebreak := by decide

/-- EcallPrints: an empty buffer anywhere, and one that ends at MEM_SIZE. -/
theorem witness_EcallPrints :
    let s := callState 64#32 1#32 0xFFFFFFFF#32 0#32
    let t := callState 64#32 1#32 0xFFE#32 2#32
    (s.x 17 = 64#32 ∧ (s.x 12).toNat = 0) ∧
    (t.x 17 = 64#32 ∧ (t.x 11).toNat + (t.x 12).toNat = t.config.memSize) := by decide

theorem witness_EcallPrintFaultsOutOfRange :
    let s := callState 64#32 1#32 0xFFE#32 3#32
    s.x 17 = 64#32 ∧ (s.x 12).toNat ≠ 0 ∧
    s.config.memSize + 1 = (s.x 11).toNat + (s.x 12).toNat := by decide

theorem witness_EcallExitAndHaltEndTheRun :
    (callState 93#32 2#32 0#32 0#32).x 17 = 93#32 ∧ (callState 0#32 2#32 0#32 0#32).x 17 = 0#32 := by
  decide

theorem witness_EcallOtherwiseDoesNothing :
    (callState 0x140#32 0#32 0#32 0#32).x 17 ∉ [0#32, 64#32, 93#32] ∧
    (callState 0xFFFFFFFF#32 0#32 0#32 0#32).x 17 ∉ [0#32, 64#32, 93#32] := by decide

/-- FirstFetchOutsideMemoryFaults: RESET_PC one byte too far, and RESET_PC = MEM_SIZE (2.11). -/
theorem witness_FirstFetchOutsideMemoryFaults :
    (⟨0xFFD#32, 0xFFF#32⟩ : Config).memSize < (0xFFD#32).toNat + 4 ∧
    (⟨0x1000#32, 0xFFF#32⟩ : Config).memSize < (0x1000#32).toNat + 4 := by decide

/-- EcallRightAfterResetHalts: a boot whose first bytes are 73 00 00 00 (2.11). -/
theorem witness_EcallRightAfterResetHalts :
    (0#32).toNat + 4 ≤ (⟨0#32, 0xFFF#32⟩ : Config).memSize ∧
    (State.boot ⟨0#32, 0xFFF#32⟩ [(0, 0x73)]).wordAt 0 = 0x00000073#32 := by decide

theorem witness_SourceAddScenario :
    let s := placeWord ((start.setX 1 5#32).setX 2 7#32) 0x002081B3#32
    s.status = .running ∧ s.pc.toNat + 4 ≤ s.config.memSize ∧
    s.wordAt s.pc.toNat = 0x002081B3#32 ∧ s.x 1 = 5#32 ∧ s.x 2 = 7#32 := by decide

end Sys2Proof.Tests
end

section
/-! PROOF. The decode function in full, as arithmetic on the word's value (40_decoder_and_cycle.md R92;
30_encoding.md R61, R63 to R67). -/

namespace Sys2Proof

/-! ## Fields, concatenations and sign extensions as numbers -/

theorem field_toNat (w : Word) (lo len : Nat) :
    (field w lo len).toNat = w.toNat / 2 ^ lo % 2 ^ len := by
  rw [field, BitVec.extractLsb'_toNat, Nat.shiftRight_eq_div_pow]

theorem field_eq_ofNat (w : Word) (lo len : Nat) :
    field w lo len = BitVec.ofNat len (w.toNat / 2 ^ lo) :=
  BitVec.eq_of_toNat_eq (by rw [field_toNat, BitVec.toNat_ofNat])

theorem append_toNat {m k : Nat} (x : BitVec m) (y : BitVec k) :
    (x ++ y).toNat = x.toNat * 2 ^ k + y.toNat := by
  rw [BitVec.toNat_append, ← Nat.shiftLeft_add_eq_or_of_lt y.isLt, Nat.shiftLeft_eq]

/-- `sext_N` (00_scope.md R8): the unsigned value less 2^N times the top bit. -/
theorem signExtend_eq_ofInt {N : Nat} {x : BitVec N} {u sign : Nat} (hu : x.toNat = u)
    (hs : u / 2 ^ (N - 1) = sign) :
    x.signExtend 32 = BitVec.ofInt 32 ((u : Int) - 2 ^ N * (sign : Int)) := by
  subst hu hs
  have hx := x.isLt
  rw [BitVec.signExtend, BitVec.toInt_eq_toNat_cond]
  congr 1
  cases N with
  | zero => simp [BitVec.of_length_zero]
  | succ k =>
    have h2 : 2 ^ (k + 1) = 2 * 2 ^ k := Nat.pow_succ'
    split
    · have : x.toNat / 2 ^ k = 0 := Nat.div_eq_of_lt (by omega)
      simp [this]
    · have : x.toNat / 2 ^ k = 1 := Nat.div_eq_of_lt_le (by omega) (by omega)
      simp [this]

/-! ## The five immediates (30_encoding.md R63 to R67); w[31] is `w.toNat / 2 ^ 31` -/

theorem immI_eq_ofInt (w : Word) :
    immI w = BitVec.ofInt 32
      (((w.toNat / 2 ^ 20 : Nat) : Int) - 2 ^ 12 * ((w.toNat / 2 ^ 31 : Nat) : Int)) := by
  have hw := w.isLt
  refine signExtend_eq_ofInt ?_ ?_
  · rw [field_toNat]; omega
  · omega

theorem immS_eq_ofInt (w : Word) :
    immS w = BitVec.ofInt 32
      (((w.toNat / 2 ^ 25 * 2 ^ 5 + w.toNat / 2 ^ 7 % 2 ^ 5 : Nat) : Int)
        - 2 ^ 12 * ((w.toNat / 2 ^ 31 : Nat) : Int)) := by
  have hw := w.isLt
  refine signExtend_eq_ofInt ?_ ?_
  · simp only [append_toNat, field_toNat]; omega
  · omega

theorem immB_eq_ofInt (w : Word) :
    immB w = BitVec.ofInt 32
      (((w.toNat / 2 ^ 31 * 2 ^ 12 + w.toNat / 2 ^ 7 % 2 * 2 ^ 11 + w.toNat / 2 ^ 25 % 2 ^ 6 * 2 ^ 5
        + w.toNat / 2 ^ 8 % 2 ^ 4 * 2 : Nat) : Int) - 2 ^ 13 * ((w.toNat / 2 ^ 31 : Nat) : Int)) := by
  have hw := w.isLt
  refine signExtend_eq_ofInt ?_ ?_
  · simp only [append_toNat, field_toNat, BitVec.toNat_ofNat]; omega
  · omega

theorem immU_eq_ofNat (w : Word) : immU w = BitVec.ofNat 32 (w.toNat / 2 ^ 12 * 2 ^ 12) := by
  have hw := w.isLt
  apply BitVec.eq_of_toNat_eq
  simp only [immU, append_toNat, field_toNat, BitVec.toNat_ofNat]
  omega

theorem immJ_eq_ofInt (w : Word) :
    immJ w = BitVec.ofInt 32
      (((w.toNat / 2 ^ 31 * 2 ^ 20 + w.toNat / 2 ^ 12 % 2 ^ 8 * 2 ^ 12 + w.toNat / 2 ^ 20 % 2 * 2 ^ 11
        + w.toNat / 2 ^ 21 % 2 ^ 10 * 2 : Nat) : Int) - 2 ^ 21 * ((w.toNat / 2 ^ 31 : Nat) : Int)) := by
  have hw := w.isLt
  refine signExtend_eq_ofInt ?_ ?_
  · simp only [append_toNat, field_toNat, BitVec.toNat_ofNat]; omega
  · omega

/-! ## The opcode selects the variant (40_decoder_and_cycle.md R92) -/

theorem opcodeOf_eq_iff (w : Word) (c : BitVec 7) : opcodeOf w = c ↔ w.toNat % 2 ^ 7 = c.toNat := by
  rw [← BitVec.toNat_inj, opcodeOf, field_toNat, Nat.pow_zero, Nat.div_one]

/-- The decoder's match as a chain of tests of the opcode, in which the otherwise arm comes last. -/
theorem decodeFields_eq_ite (w : Word) :
    decodeFields w =
      if opcodeOf w = 0b0110011#7 then .r (rdOf w) (rs1Of w) (rs2Of w) (func3Of w) (func7Of w)
      else if opcodeOf w = 0b0010011#7 then .iArith (rdOf w) (rs1Of w) (func3Of w) (func7Of w) (immI w)
      else if opcodeOf w = 0b0000011#7 then .iLoad (rdOf w) (rs1Of w) (func3Of w) (immI w)
      else if opcodeOf w = 0b1100111#7 then .iJalr (rdOf w) (rs1Of w) (func3Of w) (immI w)
      else if opcodeOf w = 0b1110011#7 then .iSystem (rdOf w) (rs1Of w) (func3Of w) (immI w)
      else if opcodeOf w = 0b0100011#7 then .s (rs1Of w) (rs2Of w) (func3Of w) (immS w)
      else if opcodeOf w = 0b1100011#7 then .b (rs1Of w) (rs2Of w) (func3Of w) (immB w)
      else if opcodeOf w = 0b0110111#7 then .uLui (rdOf w) (immU w)
      else if opcodeOf w = 0b0010111#7 then .uAuipc (rdOf w) (immU w)
      else if opcodeOf w = 0b1101111#7 then .j (rdOf w) (immJ w)
      else .unknown w := by
  unfold decodeFields
  split
  case h_11 => simp_all only [imp_false, if_false]
  all_goals
    rename_i opcode_eq
    rw [opcode_eq]
    rfl

/-- Settles O2: the tests of the opcode, each field and each immediate are read as numbers. -/
theorem decodeFunctionInFull : Obligations.DecodeFunctionInFull := by
  unfold Obligations.DecodeFunctionInFull
  intro w
  rw [decodeFields_eq_ite]
  simp only [opcodeOf_eq_iff, rdOf, rs1Of, rs2Of, func3Of, func7Of, field_eq_ofNat, BitVec.toFin_ofNat,
    immI_eq_ofInt, immS_eq_ofInt, immB_eq_ofInt, immU_eq_ofNat, immJ_eq_ofInt]
  -- what is left to compute: the opcodes' values as literals
  rfl

end Sys2Proof
end

section
/-! PROOF. The ALU's sums, differences, bitwise operations and shifts (41_alu.md R110 to R112), each completed
by the write of x[rd] and the advance to pc + 4. -/

namespace Sys2Proof.Machine

/-- An instruction whose arm of `exec` is an ALU operation completes with that operation's value, and does
nothing else (41_alu.md, template). -/
theorem exec_aluOp_onlyRegister {i : Instr} {f : Word → Word → Word} {rd rs1 : Reg} {b : Operand}
    {s : State} {v : Word} (hi : exec i s = aluOp f rd rs1 b s) (hv : f (s.x rs1) (b.value s) = v) :
    ∃ t, exec i s = .next t ∧ OnlyRegister rd v (s.pc + 4#32) s t :=
  ⟨_, hi.trans (aluOp_eq f rd rs1 b s), hv ▸ retire_sequential s rd _⟩

/-! ## Sums and differences (R110) -/

theorem aluAdd_eq_ofNat (a b : Word) : aluAdd a b = BitVec.ofNat 32 (a.toNat + b.toNat) := rfl

theorem aluAdd_eq_ofInt (a b : Word) : aluAdd a b = BitVec.ofInt 32 (a.toInt + b.toInt) := by
  rw [BitVec.ofInt_add, BitVec.ofInt_toInt, BitVec.ofInt_toInt, aluAdd]

/-- The first form of SUB in R110: the complement and 1 added. -/
theorem aluSub_eq_ofNat_not (a b : Word) :
    aluSub a b = BitVec.ofNat 32 (a.toNat + (~~~ b).toNat + 1) := by
  rw [BitVec.ofNat_add, ← aluAdd_eq_ofNat]
  rfl

/-- The second form of SUB in R110: the difference of the unsigned values. -/
theorem aluSub_eq_ofInt_toNat (a b : Word) : aluSub a b = BitVec.ofInt 32 ((a.toNat : Int) - b.toNat) := by
  rw [ofInt_sub, BitVec.ofInt_natCast, BitVec.ofInt_natCast, BitVec.ofNat_toNat, BitVec.ofNat_toNat,
    BitVec.setWidth_eq, BitVec.setWidth_eq, aluSub_eq]

theorem aluSub_eq_ofInt_toInt (a b : Word) : aluSub a b = BitVec.ofInt 32 (a.toInt - b.toInt) := by
  rw [ofInt_sub, BitVec.ofInt_toInt, BitVec.ofInt_toInt, aluSub_eq]

/-- Settles O26: the unsigned and the signed result are the same word, which reads back as the true one
wherever that fits. -/
theorem addAndSubtractWrap : Obligations.AddAndSubtractWrap := by
  unfold Obligations.AddAndSubtractWrap
  intro s rd rs1 rs2 imm
  refine ⟨exec_aluOp_onlyRegister rfl (aluAdd_eq_ofNat _ _),
    exec_aluOp_onlyRegister rfl (aluAdd_eq_ofNat _ _), ?sub, fun a b => ⟨?_, ?_, ?_, ?_⟩⟩
  case sub =>
    obtain ⟨t, ht, h⟩ : ∃ t, exec (.sub rd rs1 rs2) s = .next t ∧
        OnlyRegister rd (aluSub (s.x rs1) (s.x rs2)) (s.pc + 4#32) s t := exec_aluOp_onlyRegister rfl rfl
    exact ⟨t, ht, aluSub_eq_ofNat_not _ _ ▸ h, aluSub_eq_ofInt_toNat _ _ ▸ h⟩
  · intro hlo hhi
    rw [← aluAdd_eq_ofNat, aluAdd_eq_ofInt]
    exact BitVec.toInt_ofInt_eq_self (by decide) hlo hhi
  · intro hlo hhi
    rw [← aluSub_eq_ofInt_toNat, aluSub_eq_ofInt_toInt]
    exact BitVec.toInt_ofInt_eq_self (by decide) hlo hhi
  · exact fun hlt => BitVec.toNat_add_of_lt hlt
  · intro hle
    rw [← aluSub_eq_ofInt_toNat, aluSub_eq]
    exact BitVec.toNat_sub_of_le hle

/-! ## Bitwise operations (R111) -/

/-- An ALU operation that acts bit by bit as `op` gives an instruction whose result does. -/
theorem exec_bitwise {i : Instr} {f : Word → Word → Word} {rd rs1 : Reg} {s : State} (b : Operand)
    (op : Bool → Bool → Bool) (hi : exec i s = aluOp f rd rs1 b s)
    (hf : ∀ u v k, (f u v).getLsbD k = op (u.getLsbD k) (v.getLsbD k)) :
    ∃ t v, exec i s = .next t ∧ OnlyRegister rd v (s.pc + 4#32) s t ∧
      ∀ k < 32, v.getLsbD k = op ((s.x rs1).getLsbD k) ((b.value s).getLsbD k) := by
  obtain ⟨t, ht, h⟩ := exec_aluOp_onlyRegister hi rfl
  exact ⟨t, _, ht, h, fun k _ => hf _ _ k⟩

theorem aluAnd_getLsbD (u v : Word) (k : Nat) :
    (aluAnd u v).getLsbD k = (u.getLsbD k && v.getLsbD k) := BitVec.getLsbD_and

theorem aluOr_getLsbD (u v : Word) (k : Nat) :
    (aluOr u v).getLsbD k = (u.getLsbD k || v.getLsbD k) := BitVec.getLsbD_or

theorem aluXor_getLsbD (u v : Word) (k : Nat) :
    (aluXor u v).getLsbD k = (u.getLsbD k ^^ v.getLsbD k) := BitVec.getLsbD_xor

/-- Settles O27: each operation is one on bits, in the R and in the I-arith variant. -/
theorem logicIsBitwise : Obligations.LogicIsBitwise := by
  unfold Obligations.LogicIsBitwise
  intro s rd rs1 rs2 imm
  exact ⟨exec_bitwise (.reg rs2) and rfl aluAnd_getLsbD, exec_bitwise (.reg rs2) or rfl aluOr_getLsbD,
    exec_bitwise (.reg rs2) xor rfl aluXor_getLsbD, exec_bitwise (.imm imm) and rfl aluAnd_getLsbD,
    exec_bitwise (.imm imm) or rfl aluOr_getLsbD, exec_bitwise (.imm imm) xor rfl aluXor_getLsbD⟩

/-! ## Shifts (R112) -/

/-- The mask to five bits leaves a shift-immediate's amount as it is. -/
theorem shamtOperand_value_mod (shamt : BitVec 5) (s : State) :
    ((shamtOperand shamt).value s).toNat % 32 = shamt.toNat := by
  have := shamt.isLt
  show (shamt.setWidth 32).toNat % 32 = shamt.toNat
  rw [BitVec.toNat_setWidth]
  omega

/-- Bits of floor(s / 2^n): those n places up, and above bit 31 the sign. -/
theorem getLsbD_ofInt_toInt_div (v : Word) (n k : Nat) (hk : k < 32) :
    (BitVec.ofInt 32 (v.toInt / 2 ^ n)).getLsbD k =
      if k + n < 32 then v.getLsbD (k + n) else v.getLsbD 31 := by
  have hshift : BitVec.ofInt 32 (v.toInt / 2 ^ n) = v.sshiftRight n := by
    rw [BitVec.sshiftRight, Int.shiftRight_eq_div_pow, Nat.cast_pow, Nat.cast_ofNat]
  rw [hshift, BitVec.getLsbD_sshiftRight, decide_eq_false (Nat.not_le.mpr hk), Nat.add_comm n k,
    BitVec.msb_eq_getLsbD_last, Bool.not_false, Bool.true_and]

/-- w[24:20] are the low five bits of the decoder's immediate. -/
theorem immI_toNat_mod (w : Word) : (immI w).toNat % 32 = w.toNat / 2 ^ 20 % 32 := by
  have h := congrArg BitVec.toNat (immI_low5 w)
  rwa [BitVec.toNat_setWidth, field_toNat] at h

/-- Settles O28: the R variant's amount is masked, a shift-immediate's is its own five bits. -/
theorem shiftsMaskTheAmountToFiveBits : Obligations.ShiftsMaskTheAmountToFiveBits := by
  unfold Obligations.ShiftsMaskTheAmountToFiveBits
  refine ⟨fun s rd rs1 rs2 shamt => ?_, fun v n k _ hk => getLsbD_ofInt_toInt_div v n k hk,
    immI_toNat_mod⟩
  have hmask := shamtOperand_value_mod shamt s
  exact ⟨exec_aluOp_onlyRegister rfl (aluShift_left false _ _),
    exec_aluOp_onlyRegister rfl (aluShift_right_unsigned _ _),
    exec_aluOp_onlyRegister rfl (aluShift_right_signed _ _),
    exec_aluOp_onlyRegister rfl (by rw [aluShift_left, hmask]),
    exec_aluOp_onlyRegister rfl (by rw [aluShift_right_unsigned, hmask]),
    exec_aluOp_onlyRegister rfl (by rw [aluShift_right_signed, hmask])⟩

end Sys2Proof.Machine
end

section
/-! PROOF. Division and remainder on every operand pair (42_muldiv.md R145 to R149): what each of the four
operations answers on a zero divisor, on the overflow pair and everywhere else, each completed by the write of
x[rd] and the advance to pc + 4. -/

namespace Sys2Proof.Machine

section Operations
variable {a b : Word}

/-! ## The signed quotient and remainder (R145, R147) -/

theorem divSigned_zero (hb : b = 0#32) : divSigned a b = allOnes := if_pos hb

theorem divSigned_overflow (ha : a = int32Min) (hb : b = allOnes) : divSigned a b = int32Min := by
  rw [ha, hb]; rfl

theorem toInt_divSigned (hb : b ≠ 0#32) (h : ¬ (a = int32Min ∧ b = allOnes)) :
    (divSigned a b).toInt = a.toInt.tdiv b.toInt := by
  rw [divSigned, if_neg hb, if_neg h, toInt_ofInt_tdiv a b h]

theorem remSigned_zero (hb : b = 0#32) : remSigned a b = a := if_pos hb

theorem remSigned_overflow (ha : a = int32Min) (hb : b = allOnes) : remSigned a b = 0#32 := by
  rw [ha, hb]; rfl

/-- What a truncated quotient leaves is the remainder of truncated division, which always fits a word. -/
theorem toInt_remSigned (hb : b ≠ 0#32) (h : ¬ (a = int32Min ∧ b = allOnes)) :
    (remSigned a b).toInt = a.toInt - b.toInt * a.toInt.tdiv b.toInt := by
  rw [remSigned, if_neg hb, if_neg h, ← Int.tmod_def, toInt_ofInt_tmod]

/-! ## The unsigned quotient and remainder (R146, R148) -/

theorem divUnsigned_zero (hb : b = 0#32) : divUnsigned a b = allOnes := if_pos hb

theorem toNat_divUnsigned (hb : b ≠ 0#32) : (divUnsigned a b).toNat = a.toNat / b.toNat := by
  rw [divUnsigned, if_neg hb]
  exact Nat.mod_eq_of_lt ((Nat.div_le_self _ _).trans_lt a.isLt)

theorem remUnsigned_zero (hb : b = 0#32) : remUnsigned a b = a := if_pos hb

theorem toNat_remUnsigned (hb : b ≠ 0#32) : (remUnsigned a b).toNat = a.toNat % b.toNat := by
  rw [remUnsigned, if_neg hb]
  exact Nat.mod_eq_of_lt ((Nat.mod_le _ _).trans_lt a.isLt)

end Operations

/-! ## The four instructions (R149) -/

/-- Whatever holds of the value an ALU or multiply/divide operation computes holds of the value its instruction
writes to x[rd]. -/
theorem exec_aluOp_value {i : Instr} {f : Word → Word → Word} {rd rs1 : Reg} {b : Operand} {s : State}
    {P : Word → Prop} (hi : exec i s = aluOp f rd rs1 b s) (hP : P (f (s.x rs1) (b.value s))) :
    ∃ t v, exec i s = .next t ∧ OnlyRegister rd v (s.pc + 4#32) s t ∧ P v := by
  obtain ⟨t, ht, h⟩ := exec_aluOp_onlyRegister hi rfl
  exact ⟨t, _, ht, h, hP⟩

/-- Settles O32: none of the four has an arm that faults, and the corners and the ordinary pairs are the arms
of the operation it applies. -/
theorem divisionNeverRaises : Obligations.DivisionNeverRaises := by
  unfold Obligations.DivisionNeverRaises
  intro s rd rs1 rs2 a b
  exact ⟨exec_aluOp_value rfl ⟨divSigned_zero, divSigned_overflow, toInt_divSigned⟩,
    exec_aluOp_value rfl ⟨divUnsigned_zero, toNat_divUnsigned⟩,
    exec_aluOp_value rfl ⟨remSigned_zero, remSigned_overflow, toInt_remSigned⟩,
    exec_aluOp_value rfl ⟨remUnsigned_zero, toNat_remUnsigned⟩⟩

end Sys2Proof.Machine
end

section
/-! PROOF. JAL: its words (30_encoding.md R67, R70), and a jump's link and target (44_branch_jump.md R187). -/

namespace Sys2Proof

/-! ## Words with opcode 1101111 -/

theorem opcodeOf_and_mask (w : Word) : opcodeOf (w &&& 0x0000007F#32) = opcodeOf w := by
  rw [opcodeOf, field, BitVec.extractLsb'_and]
  exact BitVec.and_allOnes

theorem decode_of_opcode_jal {w : Word} (h : opcodeOf w = 0b1101111#7) :
    decode w = .ok (.jal (rdOf w) (immJ w)) := by
  rw [decode, decodeFields, h]
  rfl

theorem immJ_range (w : Word) :
    -1048576 ≤ (immJ w).toInt ∧ (immJ w).toInt ≤ 1048574 ∧ (immJ w).toInt % 2 = 0 :=
  of_decide_eq_true (immJ_fits w)

namespace Machine

/-! ## Link and target -/

theorem linkValue_eq_ofNat (s : State) : linkValue s = BitVec.ofNat 32 (s.pc.toNat + 4) := rfl

theorem relTarget_eq_ofNat (s : State) (imm : Word) :
    relTarget s imm = BitVec.ofNat 32 (s.pc.toNat + imm.toNat) := rfl

/-- An instruction whose arm of `exec` is a jump completes with the link in x[rd] and the pc at the target, and
does nothing else (44_branch_jump.md R187, R188). -/
theorem exec_jump_onlyRegister {i : Instr} {target : Word} {rd : Reg} {s : State}
    (hi : exec i s = jump target rd s) :
    ∃ t, exec i s = .next t ∧ OnlyRegister rd (linkValue s) target s t :=
  ⟨_, hi, retire_onlyRegister s rd _ (.explicit target)⟩

/-- Settles O44: the opcode alone selects JAL, and JAL is the jump to pc + imm. -/
theorem jalLinksAndJumps : Obligations.JalLinksAndJumps := by
  unfold Obligations.JalLinksAndJumps
  refine ⟨fun w hw => ⟨decode_of_opcode_jal ?opcode, immJ_range w⟩, fun s rd imm => ?jump⟩
  case opcode =>
    rw [← opcodeOf_and_mask, hw]
    rfl
  case jump =>
    rw [← linkValue_eq_ofNat, ← relTarget_eq_ofNat]
    exact exec_jump_onlyRegister rfl

end Machine

end Sys2Proof
end

section
/-! PROOF. LUI: its words (30_encoding.md R66, R70), the value it writes, and the pair LUI, ADDI that builds any
constant (45_large_immediate.md R200). -/

namespace Sys2Proof

/-! ## Words with opcode 0110111 -/

theorem decode_of_opcode_lui {w : Word} (h : opcodeOf w = 0b0110111#7) :
    decode w = .ok (.lui (rdOf w) (immU w)) := by
  rw [decode, decodeFields, h]
  rfl

/-! ## The upper part of a constant -/

/-- Cutting out the upper twenty bits and putting them back is a mask. -/
theorem upper20_eq_and (d : Word) :
    ((d >>> 12) &&& 0xFFFFF#32) <<< 12 = d &&& 0xFFFFF000#32 := by
  rw [BitVec.shiftLeft_and_distrib, BitVec.shiftLeft_ushiftRight, BitVec.and_assoc]
  rfl

namespace Machine

/-! ## One register written twice -/

/-- Of two writes to one register the second one's value and pc stay, and nothing else differs. -/
theorem OnlyRegister.trans {rd : Reg} {v v' npc npc' : Word} {s t u : State}
    (h : OnlyRegister rd v npc s t) (h' : OnlyRegister rd v' npc' t u) :
    OnlyRegister rd v' npc' s u where
  written := h'.written
  zero := h'.zero
  kept r hr := (h'.kept r hr).trans (h.kept r hr)
  pc := h'.pc
  bytes a := (h'.bytes a).trans (h.bytes a)
  status := h'.status.trans h.status
  trace := h'.trace.trans h.trace
  config := h'.config.trans h.config

/-- The value written matters only where it is not discarded. -/
theorem OnlyRegister.congr_value {rd : Reg} {v v' npc : Word} {s t : State}
    (h : OnlyRegister rd v npc s t) (hv : rd ≠ 0 → v = v') : OnlyRegister rd v' npc s t :=
  { h with written := fun hrd => (h.written hrd).trans (hv hrd) }

/-! ## LUI, and LUI then ADDI -/

theorem exec_lui_onlyRegister (s : State) (rd : Reg) (imm : Word) :
    ∃ t, exec (.lui rd imm) s = .next t ∧ OnlyRegister rd imm (s.pc + 4#32) s t :=
  ⟨_, rfl, retire_sequential s rd imm⟩

/-- LUI of one word and ADDI of another to the same register leave their sum there, eight bytes further on. -/
theorem exec_lui_addi_onlyRegister (s : State) (rd : Reg) (hi lo : Word) :
    ∃ t u, exec (.lui rd hi) s = .next t ∧ exec (.addi rd rd lo) t = .next u ∧
      OnlyRegister rd (hi + lo) (s.pc + 8#32) s u := by
  obtain ⟨t, ht, hst⟩ := exec_lui_onlyRegister s rd hi
  obtain ⟨u, hu, htu⟩ : ∃ u, exec (.addi rd rd lo) t = .next u ∧
      OnlyRegister rd (t.x rd + lo) (t.pc + 4#32) t u := exec_aluOp_onlyRegister rfl rfl
  have hpc : t.pc + 4#32 = s.pc + 8#32 := by
    rw [hst.pc, BitVec.add_assoc]
    rfl
  have hsum : rd ≠ 0 → t.x rd + lo = hi + lo := fun hrd => by rw [hst.written hrd]
  exact ⟨t, u, ht, hu, hst.trans (hpc ▸ htu.congr_value hsum)⟩

/-- Settles O46: the opcode alone selects LUI, LUI is the write of its immediate, and the rounded upper part and
the sign-extended lower part of a constant add up to it. -/
theorem luiLoadsTheUpperBits : Obligations.LuiLoadsTheUpperBits := by
  unfold Obligations.LuiLoadsTheUpperBits
  refine ⟨fun w hw => ?word, exec_lui_onlyRegister, fun s rd c => ?constant⟩
  case word =>
    have hop : opcodeOf w = 0b0110111#7 := by
      rw [← opcodeOf_and_mask, hw]
      rfl
    rw [decode_of_opcode_lui hop, immU_eq_and]
  case constant =>
    have hsum := upper_add_lower c
    rw [← upper20_eq_and] at hsum
    have hpair := exec_lui_addi_onlyRegister s rd
      ((((c + 0x800#32) >>> 12) &&& 0xFFFFF#32) <<< 12) ((c.extractLsb' 0 12).signExtend 32)
    rwa [hsum] at hpair

end Machine

end Sys2Proof
end

section
/-! PROOF. The decoder and the encoder agree (40_decoder_and_cycle.md R92, R94; 30_encoding.md R62 to R80): what
`decode` is for each opcode, and from it both round trips, the rows of the opcode table and the illegal words. -/

namespace Sys2Proof

/-! ## `decode` for each opcode (40_decoder_and_cycle.md R92, R94); `decode_of_opcode_jal` and
`decode_of_opcode_lui` are the other two -/

section
variable {w : Word}

theorem decode_of_opcode_op (h : opcodeOf w = 0b0110011#7) :
    decode w = selectR (rdOf w) (rs1Of w) (rs2Of w) (func3Of w) (func7Of w) := by
  rw [decode, decodeFields, h]
  rfl

theorem decode_of_opcode_opImm (h : opcodeOf w = 0b0010011#7) :
    decode w = selectIArith (rdOf w) (rs1Of w) (func3Of w) (func7Of w) (immI w) := by
  rw [decode, decodeFields, h]
  rfl

theorem decode_of_opcode_load (h : opcodeOf w = 0b0000011#7) :
    decode w = selectILoad (rdOf w) (rs1Of w) (func3Of w) (immI w) := by
  rw [decode, decodeFields, h]
  rfl

theorem decode_of_opcode_jalr (h : opcodeOf w = 0b1100111#7) :
    decode w = if func3Of w = 0b000#3 then .ok (.jalr (rdOf w) (rs1Of w) (immI w)) else .error .jalrFunc3 := by
  rw [decode, decodeFields, h]
  rfl

theorem decode_of_opcode_system (h : opcodeOf w = 0b1110011#7) :
    decode w = selectISystem (rdOf w) (rs1Of w) (func3Of w) (immI w) := by
  rw [decode, decodeFields, h]
  rfl

theorem decode_of_opcode_store (h : opcodeOf w = 0b0100011#7) :
    decode w = selectS (rs1Of w) (rs2Of w) (func3Of w) (immS w) := by
  rw [decode, decodeFields, h]
  rfl

theorem decode_of_opcode_branch (h : opcodeOf w = 0b1100011#7) :
    decode w = selectB (rs1Of w) (rs2Of w) (func3Of w) (immB w) := by
  rw [decode, decodeFields, h]
  rfl

theorem decode_of_opcode_auipc (h : opcodeOf w = 0b0010111#7) :
    decode w = .ok (.auipc (rdOf w) (immU w)) := by
  rw [decode, decodeFields, h]
  rfl

/-- The opcodes of 30_encoding.md R69. -/
def knownOpcodes : List (BitVec 7) :=
  [0b0110011#7, 0b0010011#7, 0b0000011#7, 0b1100111#7, 0b1110011#7, 0b0100011#7, 0b1100011#7,
    0b0110111#7, 0b0010111#7, 0b1101111#7]

/-- Which opcode a word has. -/
inductive OpcodeCase (w : Word) : Prop where
  | op (h : opcodeOf w = 0b0110011#7)
  | opImm (h : opcodeOf w = 0b0010011#7)
  | load (h : opcodeOf w = 0b0000011#7)
  | jalr (h : opcodeOf w = 0b1100111#7)
  | system (h : opcodeOf w = 0b1110011#7)
  | store (h : opcodeOf w = 0b0100011#7)
  | branch (h : opcodeOf w = 0b1100011#7)
  | lui (h : opcodeOf w = 0b0110111#7)
  | auipc (h : opcodeOf w = 0b0010111#7)
  | jal (h : opcodeOf w = 0b1101111#7)
  | unknown (h : opcodeOf w ∉ knownOpcodes)

theorem opcode_cases (w : Word) : OpcodeCase w := by
  by_cases hknown : opcodeOf w ∈ knownOpcodes
  · have h := hknown
    simp only [knownOpcodes, List.mem_cons, List.not_mem_nil, or_false] at h
    rcases h with h | h | h | h | h | h | h | h | h | h
    exacts [.op h, .opImm h, .load h, .jalr h, .system h, .store h, .branch h, .lui h, .auipc h, .jal h]
  · exact .unknown hknown

theorem decode_of_opcode_unknown (h : opcodeOf w ∉ knownOpcodes) : decode w = .error .unknownOpcode := by
  simp only [knownOpcodes, List.mem_cons, List.not_mem_nil, or_false, not_or] at h
  simp only [decode, decodeFields_eq_ite, h, if_false, select]

end

/-! ## Decode of encode, format by format -/

section
variable (f7 : BitVec 7) (f3 : BitVec 3) (op : BitVec 7) (rd rs1 rs2 : Reg) (n : BitVec 5) {imm : Word}

theorem decode_encodeR : decode (encodeR f7 f3 rd rs1 rs2) = selectR rd rs1 rs2 f3 f7 := by
  rw [decode_of_opcode_op (opcodeOf_encodeR ..), rdOf_encodeR, rs1Of_encodeR, rs2Of_encodeR, func3Of_encodeR,
    func7Of_encodeR]

theorem immI_encodeI_of_fits (h : immFits12 imm = true) : immI (encodeI op f3 rd rs1 imm) = imm := by
  rw [immI_encodeI, sext_of_fits12 h]

theorem decode_encodeI_opImm (h : immFits12 imm = true) :
    decode (encodeI 0b0010011#7 f3 rd rs1 imm) =
      selectIArith rd rs1 f3 (func7Of (encodeI 0b0010011#7 f3 rd rs1 imm)) imm := by
  rw [decode_of_opcode_opImm (opcodeOf_encodeI ..), rdOf_encodeI, rs1Of_encodeI, func3Of_encodeI,
    immI_encodeI_of_fits _ _ _ _ h]

theorem decode_encodeI_load (h : immFits12 imm = true) :
    decode (encodeI 0b0000011#7 f3 rd rs1 imm) = selectILoad rd rs1 f3 imm := by
  rw [decode_of_opcode_load (opcodeOf_encodeI ..), rdOf_encodeI, rs1Of_encodeI, func3Of_encodeI,
    immI_encodeI_of_fits _ _ _ _ h]

theorem decode_encodeI_jalr (h : immFits12 imm = true) :
    decode (encodeI 0b1100111#7 0b000#3 rd rs1 imm) = .ok (.jalr rd rs1 imm) := by
  rw [decode_of_opcode_jalr (opcodeOf_encodeI ..), rdOf_encodeI, rs1Of_encodeI, func3Of_encodeI,
    immI_encodeI_of_fits _ _ _ _ h, if_pos rfl]

theorem decode_encodeShift :
    decode (encodeShift f7 f3 rd rs1 n) = selectIArith rd rs1 f3 f7 (immI (encodeShift f7 f3 rd rs1 n)) := by
  rw [decode_of_opcode_opImm (opcodeOf_encodeShift ..), rdOf_encodeShift, rs1Of_encodeShift,
    func3Of_encodeShift, func7Of_encodeShift]

theorem immI_encodeShift_low5 : (immI (encodeShift f7 f3 rd rs1 n)).setWidth 5 = n := by
  rw [immI_low5, field_encodeShift]

theorem decode_encodeS (h : immFits12 imm = true) :
    decode (encodeS f3 rs1 rs2 imm) = selectS rs1 rs2 f3 imm := by
  rw [decode_of_opcode_store (opcodeOf_encodeS ..), rs1Of_encodeS, rs2Of_encodeS, func3Of_encodeS,
    immS_encodeS, sext_of_fits12 h]

theorem decode_encodeB (h : immFitsB imm = true) :
    decode (encodeB f3 rs1 rs2 imm) = selectB rs1 rs2 f3 imm := by
  rw [decode_of_opcode_branch (opcodeOf_encodeB ..), rs1Of_encodeB, rs2Of_encodeB, func3Of_encodeB,
    immB_encodeB _ _ _ _ (bit0_of_fitsB h), sext_of_fitsB h]

theorem decode_encodeU_lui (h : immFitsU imm = true) :
    decode (encodeU 0b0110111#7 rd imm) = .ok (.lui rd imm) := by
  rw [decode_of_opcode_lui (opcodeOf_encodeU ..), rdOf_encodeU, immU_encodeU _ _ _ (low12_of_fitsU h)]

theorem decode_encodeU_auipc (h : immFitsU imm = true) :
    decode (encodeU 0b0010111#7 rd imm) = .ok (.auipc rd imm) := by
  rw [decode_of_opcode_auipc (opcodeOf_encodeU ..), rdOf_encodeU, immU_encodeU _ _ _ (low12_of_fitsU h)]

theorem decode_encodeJ (h : immFitsJ imm = true) : decode (encodeJ rd imm) = .ok (.jal rd imm) := by
  rw [decode_of_opcode_jal (opcodeOf_encodeJ ..), rdOf_encodeJ, immJ_encodeJ _ _ (bit0_of_fitsJ h),
    sext_of_fitsJ h]

end

/-- Settles O7: each format's fields come back from its layout, and the format's select picks the row. -/
theorem decodeOfEncodeIsTheInstruction : Obligations.DecodeOfEncodeIsTheInstruction := by
  unfold Obligations.DecodeOfEncodeIsTheInstruction
  intro i hwf
  cases i with
  | add | sub | sll | slt | sltu | xor | srl | sra | or | and => exact decode_encodeR ..
  | mul | mulh | mulhsu | mulhu | div | divu | rem | remu => exact decode_encodeR ..
  | addi | slti | sltiu | xori | ori | andi => exact decode_encodeI_opImm _ _ _ hwf
  | slli rd rs1 n | srli rd rs1 n | srai rd rs1 n =>
    refine (decode_encodeShift ..).trans ?_
    simp only [selectIArith, immI_encodeShift_low5]
    rfl
  | lb | lh | lw | lbu | lhu => exact decode_encodeI_load _ _ _ hwf
  | sb | sh | sw => exact decode_encodeS _ _ _ hwf
  | beq | bne | blt | bge | bltu | bgeu => exact decode_encodeB _ _ _ hwf
  | lui => exact decode_encodeU_lui _ hwf
  | auipc => exact decode_encodeU_auipc _ hwf
  | jal => exact decode_encodeJ _ hwf
  | jalr => exact decode_encodeI_jalr _ _ hwf
  | ecall | ebreak => rfl

/-! ## Encode of decode: each select answers an instruction whose encoding is that of the fields it got -/

section
variable {rd rs1 rs2 : Reg} {f3 : BitVec 3} {f7 : BitVec 7} {imm w : Word} {i : Instr}

theorem encode_of_selectR (h : selectR rd rs1 rs2 f3 f7 = .ok i) :
    encode i = encodeR f7 f3 rd rs1 rs2 ∧ i.wf = true := by
  unfold selectR at h
  split at h <;> cases h <;> exact ⟨rfl, rfl⟩

theorem encode_of_selectILoad (hfit : immFits12 imm = true) (h : selectILoad rd rs1 f3 imm = .ok i) :
    encode i = encodeI 0b0000011#7 f3 rd rs1 imm ∧ i.wf = true := by
  unfold selectILoad at h
  split at h <;> cases h <;> exact ⟨rfl, hfit⟩

theorem encode_of_selectS (hfit : immFits12 imm = true) (h : selectS rs1 rs2 f3 imm = .ok i) :
    encode i = encodeS f3 rs1 rs2 imm ∧ i.wf = true := by
  unfold selectS at h
  split at h <;> cases h <;> exact ⟨rfl, hfit⟩

theorem encode_of_selectB (hfit : immFitsB imm = true) (h : selectB rs1 rs2 f3 imm = .ok i) :
    encode i = encodeB f3 rs1 rs2 imm ∧ i.wf = true := by
  unfold selectB at h
  split at h <;> cases h <;> exact ⟨rfl, hfit⟩

/-- Three bits that are none of seven values are the eighth. -/
theorem func3_eq_five : ∀ f3 : BitVec 3, f3 ≠ 0b000#3 → f3 ≠ 0b010#3 → f3 ≠ 0b011#3 → f3 ≠ 0b100#3 →
    f3 ≠ 0b110#3 → f3 ≠ 0b111#3 → f3 ≠ 0b001#3 → f3 = 0b101#3 := by
  intros
  bv_omega

theorem encode_of_selectIArith (hfit : immFits12 imm = true) (h : selectIArith rd rs1 f3 f7 imm = .ok i) :
    (encode i = encodeI 0b0010011#7 f3 rd rs1 imm ∨
      encode i = encodeShift f7 f3 rd rs1 (imm.setWidth 5)) ∧ i.wf = true := by
  unfold selectIArith at h
  split at h
  case h_7 =>
    split at h <;> cases h
    subst f7
    exact ⟨.inr rfl, rfl⟩
  case h_8 h0 h2 h3 h4 h6 h7 h1 =>
    obtain rfl := func3_eq_five _ h0 h2 h3 h4 h6 h7 h1
    split at h
    · cases h
      subst f7
      exact ⟨.inr rfl, rfl⟩
    · split at h <;> cases h
      subst f7
      exact ⟨.inr rfl, rfl⟩
  all_goals
    cases h
    exact ⟨.inl rfl, hfit⟩

theorem encode_of_selectISystem (h : selectISystem rd rs1 f3 imm = .ok i) :
    encode i = encodeI 0b1110011#7 f3 rd rs1 imm ∧ i.wf = true := by
  unfold selectISystem at h
  split at h
  case isFalse => cases h
  case isTrue hfields =>
    obtain ⟨rfl, rfl, rfl⟩ := hfields
    split at h
    · cases h
      subst imm
      exact ⟨rfl, rfl⟩
    · split at h <;> cases h
      subst imm
      exact ⟨rfl, rfl⟩

/-- `encodeI_fields` where the opcode is known as a number. -/
theorem encodeI_fields_of_opcode {op : BitVec 7} (h : opcodeOf w = op) :
    encodeI op (func3Of w) (rdOf w) (rs1Of w) (immI w) = w := by
  rw [← h, encodeI_fields]

theorem encodeU_fields_of_opcode {op : BitVec 7} (h : opcodeOf w = op) :
    encodeU op (rdOf w) (immU w) = w := by
  rw [← h, encodeU_fields]

end

/-- Settles O8: what is decoded is encoded from the word's own fields, of which the word is put together. -/
theorem encodeOfDecodeIsTheWord : Obligations.EncodeOfDecodeIsTheWord := by
  unfold Obligations.EncodeOfDecodeIsTheWord
  intro w i h
  cases opcode_cases w with
  | op hop =>
    rw [decode_of_opcode_op hop] at h
    exact (encode_of_selectR h).imp_left (·.trans (encodeR_fields w hop))
  | opImm hop =>
    rw [decode_of_opcode_opImm hop] at h
    refine (encode_of_selectIArith (immI_fits w) h).imp_left fun hi => ?_
    exact hi.elim (·.trans (encodeI_fields_of_opcode hop)) (·.trans (encodeShift_fields w hop))
  | load hop =>
    rw [decode_of_opcode_load hop] at h
    exact (encode_of_selectILoad (immI_fits w) h).imp_left (·.trans (encodeI_fields_of_opcode hop))
  | jalr hop =>
    rw [decode_of_opcode_jalr hop] at h
    split at h <;> cases h
    rename_i hf3
    have hw := encodeI_fields_of_opcode hop
    rw [hf3] at hw
    exact ⟨hw, immI_fits w⟩
  | system hop =>
    rw [decode_of_opcode_system hop] at h
    exact (encode_of_selectISystem h).imp_left (·.trans (encodeI_fields_of_opcode hop))
  | store hop =>
    rw [decode_of_opcode_store hop] at h
    exact (encode_of_selectS (immS_fits w) h).imp_left (·.trans (encodeS_fields w hop))
  | branch hop =>
    rw [decode_of_opcode_branch hop] at h
    exact (encode_of_selectB (immB_fits w) h).imp_left (·.trans (encodeB_fields w hop))
  | lui hop =>
    rw [decode_of_opcode_lui hop] at h
    cases h
    exact ⟨encodeU_fields_of_opcode hop, immU_fits w⟩
  | auipc hop =>
    rw [decode_of_opcode_auipc hop] at h
    cases h
    exact ⟨encodeU_fields_of_opcode hop, immU_fits w⟩
  | jal hop =>
    rw [decode_of_opcode_jal hop] at h
    cases h
    exact ⟨encodeJ_fields w hop, immJ_fits w⟩
  | unknown hop => rw [decode_of_opcode_unknown hop] at h; cases h

end Sys2Proof
end

section
/-! PROOF. The rows of the opcode table (30_encoding.md R72 to R79): a word is the row's instruction exactly when
the row's fixed bits have the row's values. -/

namespace Sys2Proof

/-! ## From the instruction to the fixed bits -/

/-- The encoder puts the row's values at the row's fixed bits, for all 47 rows. -/
theorem tableRow_encode (i : Instr) : encode i &&& i.tableMask = i.tableMatch := by
  open Laws.TableRow in
  cases i with
  | add => exact add ..
  | sub => exact sub ..
  | sll => exact sll ..
  | slt => exact slt ..
  | sltu => exact sltu ..
  | xor => exact xor ..
  | srl => exact srl ..
  | sra => exact sra ..
  | or => exact or ..
  | and => exact and ..
  | mul => exact mul ..
  | mulh => exact mulh ..
  | mulhsu => exact mulhsu ..
  | mulhu => exact mulhu ..
  | div => exact div ..
  | divu => exact divu ..
  | rem => exact rem ..
  | remu => exact remu ..
  | addi => exact addi ..
  | slti => exact slti ..
  | sltiu => exact sltiu ..
  | xori => exact xori ..
  | ori => exact ori ..
  | andi => exact andi ..
  | slli => exact slli ..
  | srli => exact srli ..
  | srai => exact srai ..
  | lb => exact lb ..
  | lh => exact lh ..
  | lw => exact lw ..
  | lbu => exact lbu ..
  | lhu => exact lhu ..
  | sb => exact sb ..
  | sh => exact sh ..
  | sw => exact sw ..
  | beq => exact beq ..
  | bne => exact bne ..
  | blt => exact blt ..
  | bge => exact bge ..
  | bltu => exact bltu ..
  | bgeu => exact bgeu ..
  | lui => exact lui ..
  | auipc => exact auipc ..
  | jal => exact jal ..
  | jalr => exact jalr ..
  | ecall => exact ecall
  | ebreak => exact ebreak

/-- A word that decodes to an instruction has the values of its row at the row's fixed bits. -/
theorem tableRow_of_decode {w : Word} {i : Instr} (h : decode w = .ok i) :
    w &&& i.tableMask = i.tableMatch := by
  rw [← (encodeOfDecodeIsTheWord w i h).1, tableRow_encode]

/-! ## From the fixed bits to the fields -/

section
variable {w m : Word}

theorem opcodeOf_of_mask (h : w &&& 0x0000007F#32 = m) : opcodeOf w = opcodeOf m := by
  rw [← h, opcodeOf_and_mask]

/-- The mask of the formats with func3 keeps the opcode and func3. -/
theorem fields_of_mask3 (h : w &&& 0x0000707F#32 = m) :
    opcodeOf w = opcodeOf m ∧ func3Of w = func3Of m := by
  rw [← h]
  unfold opcodeOf func3Of field
  rw [BitVec.extractLsb'_and, BitVec.extractLsb'_and]
  exact ⟨BitVec.and_allOnes.symm, BitVec.and_allOnes.symm⟩

/-- The mask of the formats with func7 keeps the opcode, func3 and func7. -/
theorem fields_of_mask7 (h : w &&& 0xFE00707F#32 = m) :
    opcodeOf w = opcodeOf m ∧ func3Of w = func3Of m ∧ func7Of w = func7Of m := by
  rw [← h]
  unfold opcodeOf func3Of func7Of field
  rw [BitVec.extractLsb'_and, BitVec.extractLsb'_and, BitVec.extractLsb'_and]
  exact ⟨BitVec.and_allOnes.symm, BitVec.and_allOnes.symm, BitVec.and_allOnes.symm⟩

end

/-! ## One lemma per format: what has to be looked up in a row. `hmask` and `hmatch` say that the row is c's own,
the others that the row's func values select c. -/

section
variable {m : Word}

theorem rowIsR {c : Reg → Reg → Reg → Instr} (hmask : ∀ a b d, (c a b d).tableMask = 0xFE00707F#32)
    (hmatch : ∀ a b d, (c a b d).tableMatch = m) (hop : opcodeOf m = 0b0110011#7)
    (hsel : ∀ rd rs1 rs2, selectR rd rs1 rs2 (func3Of m) (func7Of m) = .ok (c rd rs1 rs2)) : RowIsR m c := by
  refine fun w => ⟨fun h => ?_, fun a b d h => ?_⟩
  · obtain ⟨h0, h3, h7⟩ := fields_of_mask7 h
    rw [decode_of_opcode_op (h0.trans hop), h3, h7, hsel]
  · rw [← hmask a b d, tableRow_of_decode h, hmatch]

theorem rowIsShift {c : Reg → Reg → BitVec 5 → Instr} (hmask : ∀ a b d, (c a b d).tableMask = 0xFE00707F#32)
    (hmatch : ∀ a b d, (c a b d).tableMatch = m) (hop : opcodeOf m = 0b0010011#7)
    (hsel : ∀ rd rs1 imm, selectIArith rd rs1 (func3Of m) (func7Of m) imm = .ok (c rd rs1 (imm.setWidth 5))) :
    RowIsShift m c := by
  refine fun w => ⟨fun h => ?_, fun a b d h => ?_⟩
  · obtain ⟨h0, h3, h7⟩ := fields_of_mask7 h
    rw [decode_of_opcode_opImm (h0.trans hop), h3, h7, hsel, immI_low5, field]
  · rw [← hmask a b d, tableRow_of_decode h, hmatch]

/-- For the three opcodes of the I format, whose rows `hdec` looks up. -/
theorem rowIsI {c : Reg → Reg → Word → Instr} (hmask : ∀ a b d, (c a b d).tableMask = 0x0000707F#32)
    (hmatch : ∀ a b d, (c a b d).tableMatch = m)
    (hdec : ∀ w, opcodeOf w = opcodeOf m → func3Of w = func3Of m →
      decode w = .ok (c (rdOf w) (rs1Of w) (immI w))) : RowIsI m c := by
  refine fun w => ⟨fun h => ?_, fun a b d h => ?_⟩
  · obtain ⟨h0, h3⟩ := fields_of_mask3 h
    exact hdec w h0 h3
  · rw [← hmask a b d, tableRow_of_decode h, hmatch]

theorem rowIsI_opImm {c : Reg → Reg → Word → Instr} (hmask : ∀ a b d, (c a b d).tableMask = 0x0000707F#32)
    (hmatch : ∀ a b d, (c a b d).tableMatch = m) (hop : opcodeOf m = 0b0010011#7)
    (hsel : ∀ rd rs1 f7 imm, selectIArith rd rs1 (func3Of m) f7 imm = .ok (c rd rs1 imm)) : RowIsI m c :=
  rowIsI hmask hmatch fun w h0 h3 => by rw [decode_of_opcode_opImm (h0.trans hop), h3, hsel]

theorem rowIsI_load {c : Reg → Reg → Word → Instr} (hmask : ∀ a b d, (c a b d).tableMask = 0x0000707F#32)
    (hmatch : ∀ a b d, (c a b d).tableMatch = m) (hop : opcodeOf m = 0b0000011#7)
    (hsel : ∀ rd rs1 imm, selectILoad rd rs1 (func3Of m) imm = .ok (c rd rs1 imm)) : RowIsI m c :=
  rowIsI hmask hmatch fun w h0 h3 => by rw [decode_of_opcode_load (h0.trans hop), h3, hsel]

theorem rowIsI_jalr : RowIsI 0x00000067#32 .jalr :=
  rowIsI (fun _ _ _ => rfl) (fun _ _ _ => rfl) fun _ h0 h3 => by
    rw [decode_of_opcode_jalr h0, h3]
    rfl

/-- For the opcodes of the S and B formats, whose rows `hdec` looks up. -/
theorem rowIsSB {imm : Word → Word} {c : Reg → Reg → Word → Instr}
    (hmask : ∀ a b d, (c a b d).tableMask = 0x0000707F#32) (hmatch : ∀ a b d, (c a b d).tableMatch = m)
    (hdec : ∀ w, opcodeOf w = opcodeOf m → func3Of w = func3Of m →
      decode w = .ok (c (rs1Of w) (rs2Of w) (imm w))) : RowIsSB m imm c := by
  refine fun w => ⟨fun h => ?_, fun a b d h => ?_⟩
  · obtain ⟨h0, h3⟩ := fields_of_mask3 h
    exact hdec w h0 h3
  · rw [← hmask a b d, tableRow_of_decode h, hmatch]

theorem rowIsSB_store {c : Reg → Reg → Word → Instr} (hmask : ∀ a b d, (c a b d).tableMask = 0x0000707F#32)
    (hmatch : ∀ a b d, (c a b d).tableMatch = m) (hop : opcodeOf m = 0b0100011#7)
    (hsel : ∀ rs1 rs2 imm, selectS rs1 rs2 (func3Of m) imm = .ok (c rs1 rs2 imm)) : RowIsSB m immS c :=
  rowIsSB hmask hmatch fun w h0 h3 => by rw [decode_of_opcode_store (h0.trans hop), h3, hsel]

theorem rowIsSB_branch {c : Reg → Reg → Word → Instr} (hmask : ∀ a b d, (c a b d).tableMask = 0x0000707F#32)
    (hmatch : ∀ a b d, (c a b d).tableMatch = m) (hop : opcodeOf m = 0b1100011#7)
    (hsel : ∀ rs1 rs2 imm, selectB rs1 rs2 (func3Of m) imm = .ok (c rs1 rs2 imm)) : RowIsSB m immB c :=
  rowIsSB hmask hmatch fun w h0 h3 => by rw [decode_of_opcode_branch (h0.trans hop), h3, hsel]

/-- For the formats the opcode alone selects. -/
theorem rowIsU {imm : Word → Word} {c : Reg → Word → Instr} (hmask : ∀ a d, (c a d).tableMask = 0x0000007F#32)
    (hmatch : ∀ a d, (c a d).tableMatch = m)
    (hdec : ∀ w, opcodeOf w = opcodeOf m → decode w = .ok (c (rdOf w) (imm w))) : RowIsU m imm c := by
  refine fun w => ⟨fun h => hdec w (opcodeOf_of_mask h), fun a d h => ?_⟩
  rw [← hmask a d, tableRow_of_decode h, hmatch]

end

/-! ## The rows -/

/-- Settles O3: each row's match value holds the func values that select its instruction. -/
theorem opRowsOfTheTable : Obligations.OpRowsOfTheTable := by
  unfold Obligations.OpRowsOfTheTable
  refine ⟨?_, ?_, ?_, ?_, ?_, ?_, ?_, ?_, ?_, ?_, ?_, ?_, ?_, ?_, ?_, ?_, ?_, ?_⟩ <;>
    exact rowIsR (fun _ _ _ => rfl) (fun _ _ _ => rfl) rfl fun _ _ _ => rfl

/-- Settles O4: the same for the OP-IMM, the shift-immediate, the LOAD and the JALR rows. -/
theorem immediateRowsOfTheTable : Obligations.ImmediateRowsOfTheTable := by
  unfold Obligations.ImmediateRowsOfTheTable
  refine ⟨?addi, ?slti, ?sltiu, ?xori, ?ori, ?andi, ?slli, ?srli, ?srai, ?lb, ?lh, ?lw, ?lbu, ?lhu, rowIsI_jalr⟩
  case addi | slti | sltiu | xori | ori | andi =>
    exact rowIsI_opImm (fun _ _ _ => rfl) (fun _ _ _ => rfl) rfl fun _ _ _ _ => rfl
  case slli | srli | srai => exact rowIsShift (fun _ _ _ => rfl) (fun _ _ _ => rfl) rfl fun _ _ _ => rfl
  case lb | lh | lw | lbu | lhu => exact rowIsI_load (fun _ _ _ => rfl) (fun _ _ _ => rfl) rfl fun _ _ _ => rfl

/-- The two rows whose bits are all fixed (30_encoding.md R78). -/
theorem decode_eq_ecall_iff (w : Word) : decode w = .ok .ecall ↔ w = 0x00000073#32 :=
  ⟨fun h => (encodeOfDecodeIsTheWord w _ h).1.symm, fun h => h ▸ rfl⟩

theorem decode_eq_ebreak_iff (w : Word) : decode w = .ok .ebreak ↔ w = 0x00100073#32 :=
  ⟨fun h => (encodeOfDecodeIsTheWord w _ h).1.symm, fun h => h ▸ rfl⟩

/-- Settles O5: the same for the store, the branch, the LUI, AUIPC and JAL rows, and the two words of SYSTEM. -/
theorem storeBranchAndUpperRowsOfTheTable : Obligations.StoreBranchAndUpperRowsOfTheTable := by
  unfold Obligations.StoreBranchAndUpperRowsOfTheTable
  refine ⟨?sb, ?sh, ?sw, ?beq, ?bne, ?blt, ?bge, ?bltu, ?bgeu, ?lui, ?auipc, ?jal, decode_eq_ecall_iff,
    decode_eq_ebreak_iff⟩
  case sb | sh | sw => exact rowIsSB_store (fun _ _ _ => rfl) (fun _ _ _ => rfl) rfl fun _ _ _ => rfl
  case beq | bne | blt | bge | bltu | bgeu =>
    exact rowIsSB_branch (fun _ _ _ => rfl) (fun _ _ _ => rfl) rfl fun _ _ _ => rfl
  case lui => exact rowIsU (fun _ _ => rfl) (fun _ _ => rfl) fun _ h => decode_of_opcode_lui h
  case auipc => exact rowIsU (fun _ _ => rfl) (fun _ _ => rfl) fun _ h => decode_of_opcode_auipc h
  case jal => exact rowIsU (fun _ _ => rfl) (fun _ _ => rfl) fun _ h => decode_of_opcode_jal h

/-- Settles O1: thirteen closed words, each decoded by evaluation. -/
theorem wordsOfTheSpecDecode : Obligations.WordsOfTheSpecDecode := by
  unfold Obligations.WordsOfTheSpecDecode
  decide

end Sys2Proof
end

section
/-! PROOF. The illegal words (30_encoding.md R80): when each select answers none of its rows, and those cases in
the numbers of func3 and func7. -/

namespace Sys2Proof

/-! ## When each select errs, and with which reason -/

section
variable {rd rs1 rs2 : Reg} {f3 : BitVec 3} {f7 : BitVec 7} {imm : Word} {e : Illegal}

theorem func3_cases (f3 : BitVec 3) : f3 = 0b000#3 ∨ f3 = 0b001#3 ∨ f3 = 0b010#3 ∨ f3 = 0b011#3 ∨
    f3 = 0b100#3 ∨ f3 = 0b101#3 ∨ f3 = 0b110#3 ∨ f3 = 0b111#3 := by
  bv_omega

theorem selectILoad_eq_error : selectILoad rd rs1 f3 imm = .error e ↔
    e = .loadWidth ∧ (f3 = 0b011#3 ∨ f3 = 0b110#3 ∨ f3 = 0b111#3) := by
  rcases func3_cases f3 with rfl | rfl | rfl | rfl | rfl | rfl | rfl | rfl <;>
    simp [selectILoad, @eq_comm _ e]

theorem selectS_eq_error : selectS rs1 rs2 f3 imm = .error e ↔
    e = .storeWidth ∧ (f3 = 0b011#3 ∨ f3 = 0b100#3 ∨ f3 = 0b101#3 ∨ f3 = 0b110#3 ∨ f3 = 0b111#3) := by
  rcases func3_cases f3 with rfl | rfl | rfl | rfl | rfl | rfl | rfl | rfl <;>
    simp [selectS, @eq_comm _ e]

theorem selectB_eq_error : selectB rs1 rs2 f3 imm = .error e ↔
    e = .branchCond ∧ (f3 = 0b010#3 ∨ f3 = 0b011#3) := by
  rcases func3_cases f3 with rfl | rfl | rfl | rfl | rfl | rfl | rfl | rfl <;>
    simp [selectB, @eq_comm _ e]

/-- Only the two shifts look at func7. -/
theorem selectIArith_eq_error : selectIArith rd rs1 f3 f7 imm = .error e ↔
    e = .shiftFunc7 ∧ ((f3 = 0b001#3 ∧ f7 ≠ 0b0000000#7) ∨
      (f3 = 0b101#3 ∧ f7 ≠ 0b0000000#7 ∧ f7 ≠ 0b0100000#7)) := by
  unfold selectIArith
  split
  case h_7 => split <;> simp_all [@eq_comm _ e]
  case h_8 h0 h2 h3 h4 h6 h7 h1 =>
    obtain rfl := func3_eq_five _ h0 h2 h3 h4 h6 h7 h1
    split
    · simp_all
    · split <;> simp_all [@eq_comm _ e]
  all_goals simp

/-- With a listed func7 the rows are told by func3 alone, with another one there is none. -/
theorem selectR_eq_error : selectR rd rs1 rs2 f3 f7 = .error e ↔
    e = .opFunc ∧ (¬ (f7 = 0b0000000#7 ∨ f7 = 0b0100000#7 ∨ f7 = 0b0000001#7) ∨
      (f7 = 0b0100000#7 ∧ ¬ (f3 = 0b000#3 ∨ f3 = 0b101#3))) := by
  by_cases hf7 : f7 = 0b0000000#7 ∨ f7 = 0b0100000#7 ∨ f7 = 0b0000001#7
  · rcases hf7 with rfl | rfl | rfl <;>
      rcases func3_cases f3 with rfl | rfl | rfl | rfl | rfl | rfl | rfl | rfl <;>
        simp [selectR, @eq_comm _ e]
  · have hsel : selectR rd rs1 rs2 f3 f7 = .error .opFunc := by
      unfold selectR
      split
      case h_19 => rfl
      all_goals simp at hf7
    simp [hsel, hf7, @eq_comm _ e]

/-- Every SYSTEM word but the two legal ones. -/
theorem selectISystem_eq_error : selectISystem rd rs1 f3 imm = .error e ↔
    e = .systemWord ∧ selectISystem rd rs1 f3 imm ≠ .ok .ecall ∧ selectISystem rd rs1 f3 imm ≠ .ok .ebreak := by
  unfold selectISystem
  split
  · split
    · simp
    · split <;> simp [@eq_comm _ e]
  · simp [@eq_comm _ e]

theorem ite_ok_eq_error {P : Prop} [Decidable P] {i : Instr} {e' : Illegal} :
    ((if P then .ok i else .error e' : Except Illegal Instr) = .error e) ↔ e = e' ∧ ¬ P := by
  split <;> simp [*, @eq_comm _ e]

end

/-! ## The fields as numbers -/

theorem func3Of_eq_iff (w : Word) (c : BitVec 3) : func3Of w = c ↔ w.toNat / 2 ^ 12 % 2 ^ 3 = c.toNat := by
  rw [← BitVec.toNat_inj, func3Of, field_toNat]

theorem func7Of_eq_iff (w : Word) (c : BitVec 7) : func7Of w = c ↔ w.toNat / 2 ^ 25 = c.toNat := by
  have hw := w.isLt
  rw [← BitVec.toNat_inj, func7Of, field_toNat, Nat.mod_eq_of_lt (by omega)]

theorem opcodeOf_mem_knownOpcodes_iff (w : Word) : opcodeOf w ∈ knownOpcodes ↔
    w.toNat % 2 ^ 7 ∈ [0b0110011, 0b0010011, 0b0000011, 0b1100111, 0b1110011, 0b0100011, 0b1100011, 0b0110111,
      0b0010111, 0b1101111] := by
  simp only [knownOpcodes, List.mem_cons, List.not_mem_nil, or_false, opcodeOf_eq_iff]
  rfl

/-- Settles O6: the opcode leaves one select, which errs with its own reason. -/
theorem illegalWordsAreTheEightCases : Obligations.IllegalWordsAreTheEightCases := by
  unfold Obligations.IllegalWordsAreTheEightCases
  intro w op func3 func7
  cases opcode_cases w with
  | op hop =>
    have hnum : op = 0b0110011 := (opcodeOf_eq_iff w _).1 hop
    simp [hnum, decode_of_opcode_op hop, selectR_eq_error, func3Of_eq_iff, func7Of_eq_iff, func3, func7]
  | opImm hop =>
    have hnum : op = 0b0010011 := (opcodeOf_eq_iff w _).1 hop
    simp [hnum, decode_of_opcode_opImm hop, selectIArith_eq_error, func3Of_eq_iff, func7Of_eq_iff, func3, func7]
  | load hop =>
    have hnum : op = 0b0000011 := (opcodeOf_eq_iff w _).1 hop
    simp [hnum, decode_of_opcode_load hop, selectILoad_eq_error, func3Of_eq_iff, func3]
  | jalr hop =>
    have hnum : op = 0b1100111 := (opcodeOf_eq_iff w _).1 hop
    simp [hnum, decode_of_opcode_jalr hop, ite_ok_eq_error, func3Of_eq_iff, func3]
  | system hop =>
    have hnum : op = 0b1110011 := (opcodeOf_eq_iff w _).1 hop
    simp only [decode_of_opcode_system hop, ne_eq, selectISystem_eq_error]
    simp [← decode_of_opcode_system hop, decode_eq_ecall_iff, decode_eq_ebreak_iff, hnum]
  | store hop =>
    have hnum : op = 0b0100011 := (opcodeOf_eq_iff w _).1 hop
    simp [hnum, decode_of_opcode_store hop, selectS_eq_error, func3Of_eq_iff, func3]
  | branch hop =>
    have hnum : op = 0b1100011 := (opcodeOf_eq_iff w _).1 hop
    simp [hnum, decode_of_opcode_branch hop, selectB_eq_error, func3Of_eq_iff, func3]
  | lui hop =>
    have hnum : op = 0b0110111 := (opcodeOf_eq_iff w _).1 hop
    simp [hnum, decode_of_opcode_lui hop]
  | auipc hop =>
    have hnum : op = 0b0010111 := (opcodeOf_eq_iff w _).1 hop
    simp [hnum, decode_of_opcode_auipc hop]
  | jal hop =>
    have hnum : op = 0b1101111 := (opcodeOf_eq_iff w _).1 hop
    simp [hnum, decode_of_opcode_jal hop]
  | unknown hop =>
    have hnum : op ∉ [_, _, _, _, _, _, _, _, _, _] := mt (opcodeOf_mem_knownOpcodes_iff w).2 hop
    simp only [List.mem_cons, List.not_mem_nil, or_false, not_or] at hnum
    simp [hnum, decode_of_opcode_unknown hop]

end Sys2Proof
end

section
/-! PROOF. The step (40_decoder_and_cycle.md R95, R96; 60_exceptions.md R220 to R229): which instruction it runs,
which faults it takes and what a fault leaves. -/

namespace Sys2Proof.Machine

/-! ## The three ends of a cycle, each from its conditions -/

section
variable {s : State}

/-- `raise` answers the fault entry's state, from which nothing but the status differs (60_exceptions.md R226). -/
theorem raise_onlyFaulted (c : Cause) (s : State) :
    ∃ t, raise c s = .fault (.raised c t) ∧ OnlyFaulted c s t :=
  ⟨_, rfl, enterFault_onlyFaulted s c⟩

theorem cycle_of_fetch_outOfRange (h : s.config.memSize < s.pc.toNat + 4) :
    cycle s = raise (.illegalMemoryAccess s.pc s.pc 4 .fetch) s := by
  rcases cycle_cases s with ⟨-, hc⟩ | ⟨hr, -⟩ | ⟨hr, -⟩
  · exact hc
  all_goals omega

theorem cycle_of_decode_error {e : Illegal} (hr : s.pc.toNat + 4 ≤ s.config.memSize)
    (hd : decode (s.wordAt s.pc.toNat) = .error e) :
    cycle s = raise (.illegalInstruction s.pc (s.wordAt s.pc.toNat)) s := by
  rcases cycle_cases s with ⟨ho, -⟩ | ⟨-, _, -, hc⟩ | ⟨-, i, hi, -⟩
  · omega
  · exact hc
  · rw [hd] at hi; cases hi

theorem cycle_of_decode_ok {i : Instr} (hr : s.pc.toNat + 4 ≤ s.config.memSize)
    (hd : decode (s.wordAt s.pc.toNat) = .ok i) : cycle s = exec i s := by
  rcases cycle_cases s with ⟨ho, -⟩ | ⟨-, e, he, -⟩ | ⟨-, j, hj, hc⟩
  · omega
  · rw [hd] at he; cases he
  · rw [hd] at hj; cases hj; exact hc

end

/-- Settles O9: the fetch reads the word at the pc, and dispatch adds nothing to `exec`. -/
theorem stepRunsTheDecodedInstruction : Obligations.StepRunsTheDecodedInstruction := by
  unfold Obligations.StepRunsTheDecodedInstruction
  intro s i hrun hr hd
  rw [step_running hrun, cycle_of_decode_ok hr hd]

/-- Settles O10: the cycle ends at the fetch, in the fault entry. -/
theorem fetchOutOfRangeFaults : Obligations.FetchOutOfRangeFaults := by
  unfold Obligations.FetchOutOfRangeFaults
  intro s hrun ho
  rw [step_running hrun, cycle_of_fetch_outOfRange ho]
  exact raise_onlyFaulted _ s

/-- Settles O11: the cycle ends at the decoder, in the fault entry. -/
theorem illegalWordFaults : Obligations.IllegalWordFaults := by
  unfold Obligations.IllegalWordFaults
  intro s e hrun hr hd
  rw [step_running hrun, cycle_of_decode_error hr hd]
  exact raise_onlyFaulted _ s

/-- Settles O12: only a Running core has a cycle. -/
theorem stoppedCoreHasNoStep : Obligations.StoppedCoreHasNoStep := by
  unfold Obligations.StoppedCoreHasNoStep
  exact fun s hstop => ⟨step_stopped hstop, coreReset_status s⟩

/-! ## Faults (60_exceptions.md R220 to R226) -/

/-- An instruction's fault is an access out of range, raised at that instruction. -/
theorem exec_fault {i : Instr} {s t : State} {c : Cause} (h : exec i s = .fault (.raised c t)) :
    t = s.enterFault c ∧ ∃ a n k, c = .illegalMemoryAccess s.pc a n k := by
  have hdoes := exec_does i s
  rw [h] at hdoes
  cases hdoes with
  | faults a k kind => exact ⟨rfl, a, k, kind, rfl⟩

/-- Settles O13: the three ends of a cycle that fault all go through the fault entry. -/
theorem faultsArePreciseAndFinal : Obligations.FaultsArePreciseAndFinal := by
  unfold Obligations.FaultsArePreciseAndFinal
  intro s t c h
  by_cases hrun : s.status = .running
  case neg => rw [step_stopped hrun] at h; cases h
  rw [step_running hrun] at h
  have hc : t = s.enterFault c ∧
      ((∃ w, c = .illegalInstruction s.pc w) ∨ ∃ a n k, c = .illegalMemoryAccess s.pc a n k) := by
    rcases cycle_cases s with ⟨-, hraise⟩ | ⟨-, _, -, hraise⟩ | ⟨-, i, -, hexec⟩
    · rw [h] at hraise; cases hraise
      exact ⟨rfl, .inr ⟨_, _, _, rfl⟩⟩
    · rw [h] at hraise; cases hraise
      exact ⟨rfl, .inl ⟨_, rfl⟩⟩
    · exact (exec_fault (hexec.symm.trans h)).imp_right .inr
  obtain ⟨rfl, hcause⟩ := hc
  exact ⟨hrun, enterFault_onlyFaulted s c, step_stopped (by simp), hcause⟩

/-- An ECALL that does not complete is a print call. -/
theorem execEcall_completes_or_prints (s : State) :
    (∃ t, execEcall s = .next t) ∨ s.x a7 = 64#32 := by
  rcases execEcall_cases s with ⟨hcall, -⟩ | ⟨-, h⟩ | ⟨-, h⟩ | ⟨-, -, -, h⟩
  · exact .inr hcall
  all_goals exact .inl ⟨_, h⟩

/-- Settles O14: of everything an instruction can do, only the access out of range is no next state. -/
theorem onlyOutOfRangeAccessesFault : Obligations.OnlyOutOfRangeAccessesFault := by
  unfold Obligations.OnlyOutOfRangeAccessesFault
  intro i s
  have hdoes := exec_does i s
  generalize hr : exec i s = r at hdoes ⊢
  cases hdoes with
  | faults a k kind outOfRange accesses =>
    rcases accesses with hload | hstore | rfl
    · exact .inr ⟨.inl hload, a, k, kind, _, outOfRange, rfl⟩
    · exact .inr ⟨.inr (.inl hstore), a, k, kind, _, outOfRange, rfl⟩
    · refine .inr ⟨.inr (.inr ⟨rfl, ?_⟩), a, k, kind, _, outOfRange, rfl⟩
      obtain ⟨t, ht⟩ | hcall := execEcall_completes_or_prints s
      · cases ht.symm.trans hr
      · exact hcall
  | _ => exact .inl ⟨_, rfl⟩

end Sys2Proof.Machine
end

section
/-! PROOF. Rules about every step: the invariant (10_state.md R20, R21, R27; 20_memory.md R40), the parameters, and
which steps may change the pc, the registers, Memory, the status and the trace. -/

namespace Sys2Proof.Machine

/-! ## Every next state is one of five -/

/-- A next state an instruction answers is that of one of the kinds of effect of `Does`. -/
theorem exec_next_does {i : Instr} {s t : State} (h : exec i s = .next t) : Does i s (.next t) :=
  h ▸ exec_does i s

/-- A step whose word decodes to i executes i. -/
theorem exec_of_step {i : Instr} {s t : State} (h : step s = .next t)
    (hd : decode (s.wordAt s.pc.toNat) = .ok i) : s.status = .running ∧ exec i s = .next t := by
  obtain ⟨hrun, -, j, hj, hexec⟩ := step_next h
  rw [hd] at hj
  cases hj
  exact ⟨hrun, hexec⟩

/-! ## The invariant -/

theorem inv_iff (s : State) : s.inv = true ↔
    s.mem.wf = true ∧ (∀ c ∈ s.mem, c.1 < s.config.memSize) ∧ s.regs[0] = 0#32 := by
  simp only [State.inv, Bool.and_eq_true, List.all_eq_true, decide_eq_true_eq, and_assoc]

/-- No write reaches the slot of x[0] (10_state.md R21). -/
theorem setX_regs_zero (s : State) (r : Reg) (v : Word) : (s.setX r v).regs[0] = s.regs[0] := by
  unfold State.setX
  split
  · rfl
  case isFalse hr =>
    exact Vector.getElem_set_ne r.isLt (by decide) (fun h => hr (Fin.ext h))

theorem retire_regs_zero (s : State) (r : Reg) (v : Word) (n : NextPc) :
    (s.retire r v n).regs[0] = s.regs[0] := setX_regs_zero s r v

/-- An update that keeps Memory, the parameters and the slot of x[0] keeps the invariant. -/
theorem inv_of_same {s t : State} (hs : s.inv = true) (hmem : t.mem = s.mem) (hconfig : t.config = s.config)
    (hregs : t.regs[0] = s.regs[0]) : t.inv = true := by
  rw [inv_iff] at hs ⊢
  rwa [hmem, hconfig, hregs]

/-- A run of bytes written inside Memory keeps the invariant. -/
theorem inv_setBytes {s : State} {a : Nat} {bs : List Byte} (hs : s.inv = true)
    (hr : a + bs.length ≤ s.config.memSize) : ({ s with mem := s.mem.setBytes a bs } : State).inv = true := by
  rw [inv_iff] at hs ⊢
  obtain ⟨hwf, hlisted, hzero⟩ := hs
  refine ⟨setBytes_wf bs a hwf, fun c hc => ?_, hzero⟩
  rcases mem_setBytes bs hc with hc | ⟨-, hc⟩
  · exact hlisted c hc
  · exact hc.trans_le hr

theorem exec_keeps_inv {i : Instr} {s t : State} (hs : s.inv = true) (h : exec i s = .next t) :
    t.inv = true := by
  cases exec_next_does h with
  | writesRegister rd v n => exact inv_of_same hs (by simp) (by simp) (retire_regs_zero s rd v n)
  | movesPc | prints | stops => exact inv_of_same hs rfl rfl rfl
  | stores a k v inRange => exact inv_of_same (inv_setBytes hs (by simpa using inRange)) rfl rfl rfl

/-- Settles O15: a step is an instruction, and of the five kinds of effect only a store touches what the invariant
speaks of. -/
theorem stepKeepsTheInvariant : Obligations.StepKeepsTheInvariant := by
  unfold Obligations.StepKeepsTheInvariant
  intro s t hs h
  obtain ⟨-, -, i, -, hexec⟩ := step_next h
  exact exec_keeps_inv hs hexec

/-! ## The parameters -/

theorem exec_config {i : Instr} {s t : State} (h : exec i s = .next t) : t.config = s.config := by
  cases exec_next_does h with
  | writesRegister => exact retire_config ..
  | movesPc | stores | prints | stops => rfl

/-- Settles O19: no effect writes the parameters, and every MEM_SIZE is in range. -/
theorem parametersNeverChange : Obligations.ParametersNeverChange := by
  unfold Obligations.ParametersNeverChange
  intro s t h
  obtain ⟨-, -, i, -, hexec⟩ := step_next h
  exact ⟨exec_config hexec, memSize_bounds t.config⟩

/-! ## The status and the trace (46_system.md R207) -/

/-- What an ECALL that completes does to the status and the trace, by call number. -/
theorem execEcall_next {s t : State} (h : execEcall s = .next t) :
    (s.x a7 = 64#32 ∧ t.status = s.status ∧ ∃ e, t.trace = s.trace ++ [e]) ∨
    (s.x a7 = 93#32 ∧ t.status = .exited (s.x a0) ∧ t.trace = s.trace) ∨
    (s.x a7 = 0#32 ∧ t.status = .halted ∧ t.trace = s.trace) ∨
    (t.status = s.status ∧ t.trace = s.trace) := by
  rcases execEcall_cases s with ⟨hcall, he⟩ | ⟨hcall, he⟩ | ⟨hcall, he⟩ | ⟨-, -, -, he⟩
  · rw [he] at h
    rcases sysPrint_cases s with ⟨-, -, hp⟩ | ⟨-, hp⟩
    · rw [hp] at h; cases h
    · rw [hp] at h; cases h
      exact .inl ⟨hcall, rfl, _, rfl⟩
  · rw [he] at h; cases h
    exact .inr (.inl ⟨hcall, rfl, rfl⟩)
  · rw [he] at h; cases h
    exact .inr (.inr (.inl ⟨hcall, rfl, rfl⟩))
  · rw [he] at h; cases h
    exact .inr (.inr (.inr ⟨rfl, rfl⟩))

theorem exec_status_trace {i : Instr} {s t : State} (hi : i ≠ .ecall) (h : exec i s = .next t) :
    t.status = s.status ∧ t.trace = s.trace := by
  cases exec_next_does h with
  | writesRegister => exact ⟨retire_status .., retire_trace ..⟩
  | movesPc | stores => exact ⟨rfl, rfl⟩
  | prints _ call | stops _ _ call => exact absurd call hi

/-- Settles O20: any other instruction leaves the status and the trace, and an ECALL changes them by its call
number. -/
theorem onlyEcallEndsTheRunOrPrints : Obligations.OnlyEcallEndsTheRunOrPrints := by
  unfold Obligations.OnlyEcallEndsTheRunOrPrints
  intro s t h
  obtain ⟨hrun, -, i, hd, hexec⟩ := step_next h
  by_cases hi : i = .ecall
  case neg =>
    obtain ⟨hst, htr⟩ := exec_status_trace hi hexec
    exact .inl ⟨hst.trans hrun, htr⟩
  subst hi
  have hword := (decode_eq_ecall_iff _).1 hd
  rcases execEcall_next hexec with ⟨hcall, hst, htr⟩ | hexit | hhalt | ⟨hst, htr⟩
  · exact .inr ⟨hword, .inr (.inr ⟨hcall, hst.trans hrun, htr⟩)⟩
  · exact .inr ⟨hword, .inl hexit⟩
  · exact .inr ⟨hword, .inr (.inl hhalt)⟩
  · exact .inl ⟨hst.trans hrun, htr⟩

/-! ## Runs -/

/-- The state a loader and a reset leave meets the invariant when MEM_INIT lies in Memory. -/
theorem boot_inv {k : Config} {m : Memory} (hwf : m.wf = true) (hlisted : ∀ c ∈ m, c.1 < k.memSize) :
    (State.boot k m).inv = true :=
  (inv_iff _).2 ⟨hwf, hlisted, rfl⟩

/-- Settles O16: `State.reset` is a boot with nothing listed. -/
theorem resetMeetsTheInvariant : Obligations.ResetMeetsTheInvariant := by
  unfold Obligations.ResetMeetsTheInvariant
  exact boot_inv (k := Config.default) (m := []) rfl (by simp)

/-- A step's next state is not Faulted (60_exceptions.md R241). -/
theorem step_next_not_faulted {s t : State} (h : step s = .next t) (c : Cause) : t.status ≠ .faulted c := by
  rcases onlyEcallEndsTheRunOrPrints s t h with ⟨hst, -⟩ | ⟨-, ⟨-, hst, -⟩ | ⟨-, hst, -⟩ | ⟨-, hst, -⟩⟩ <;>
    simp [hst]

/-- Settles O17, by induction on the run. -/
theorem everyReachedStateMeetsTheInvariant : Obligations.EveryReachedStateMeetsTheInvariant := by
  unfold Obligations.EveryReachedStateMeetsTheInvariant
  intro k m t hwf hlisted hreach
  induction hreach with
  | refl => exact ⟨boot_inv hwf hlisted, rfl, fun c => nofun⟩
  | step _ hstep ih =>
    obtain ⟨hinv, hconfig, -⟩ := ih
    exact ⟨stepKeepsTheInvariant _ _ hinv hstep, (parametersNeverChange _ _ hstep).1.trans hconfig,
      step_next_not_faulted hstep⟩

/-! ## Memory, the pc and the registers -/

theorem exec_mem {i : Instr} {s t : State} (hi : i.isStore = false) (h : exec i s = .next t) :
    t.mem = s.mem := by
  cases exec_next_does h with
  | writesRegister => exact retire_mem ..
  | movesPc | prints | stops => rfl
  | stores _ _ _ _ isStore => rw [hi] at isStore; cases isStore

/-- Settles O21: of the five kinds of effect only a store's writes Memory. -/
theorem onlyStoresWriteMemory : Obligations.OnlyStoresWriteMemory := by
  unfold Obligations.OnlyStoresWriteMemory
  intro s t i h hd hi a
  rw [exec_mem hi (exec_of_step h hd).2]

theorem exec_pc {i : Instr} {s t : State} (hrun : s.status = .running) (hi : i.isTransfer = false)
    (h : exec i s = .next t) : if t.status = .running then t.pc = s.pc + 4#32 else t.pc = s.pc := by
  cases exec_next_does h with
  | writesRegister rd v n pc =>
    obtain rfl : n = .sequential := pc.resolve_right (by simp [hi])
    simp [hrun]
  | movesPc n pc =>
    obtain rfl : n = .sequential := pc.resolve_right (by simp [hi])
    simp [hrun]
  | stores | prints => simp [hrun]
  | stops st final => rcases final with rfl | ⟨c, rfl⟩ <;> simp

/-- Settles O22: an effect that sets the pc is a transfer's, and the one that keeps it ends the run. -/
theorem onlyTransfersSetThePc : Obligations.OnlyTransfersSetThePc := by
  unfold Obligations.OnlyTransfersSetThePc
  intro s t i h hd hi
  obtain ⟨hrun, hexec⟩ := exec_of_step h hd
  exact exec_pc hrun hi hexec

/-- At most one register differs after an instruction, the one of the effect that writes one. -/
theorem exec_registers {i : Instr} {s t : State} (h : exec i s = .next t) :
    ∃ rd, ∀ r, r ≠ rd → t.x r = s.x r := by
  cases exec_next_does h with
  | writesRegister rd v n => exact ⟨rd, (retire_onlyRegister s rd v n).kept⟩
  | movesPc | stores | prints | stops => exact ⟨0, fun _ _ => rfl⟩

theorem exec_branch_registers {c : Cond} {signed : Bool} {rs1 rs2 : Reg} {imm : Word} {s t : State}
    (h : branch c signed rs1 rs2 imm s = .next t) (r : Reg) : t.x r = s.x r := by
  cases h
  rfl

/-- Stores and ECALL have no effect that writes a register. -/
theorem exec_registers_of_store_or_ecall {i : Instr} {s t : State} (hi : i.isStore = true ∨ i = .ecall)
    (h : exec i s = .next t) (r : Reg) : t.x r = s.x r := by
  cases exec_next_does h with
  | writesRegister _ _ _ _ noStore noCall => simp [noStore, noCall] at hi
  | movesPc | stores | prints | stops => rfl

/-- Settles O23: one effect writes a register, and it is none of a store, a branch, ECALL or EBREAK. -/
theorem atMostOneRegisterIsWritten : Obligations.AtMostOneRegisterIsWritten := by
  unfold Obligations.AtMostOneRegisterIsWritten
  intro s t i h hd
  obtain ⟨-, hexec⟩ := exec_of_step h hd
  refine ⟨exec_registers hexec, x_zero t, ?_⟩
  rintro (hstore | rfl | rfl | ⟨a, b, d, rfl | rfl | rfl | rfl | rfl | rfl⟩) r
  case inl => exact exec_registers_of_store_or_ecall (.inl hstore) hexec r
  case inr.inl => exact exec_registers_of_store_or_ecall (.inr rfl) hexec r
  case inr.inr.inl => cases hexec; rfl
  all_goals exact exec_branch_registers hexec r

/-! ## The parity of the pc (10_state.md R27) -/

theorem add_even {a b : Word} (ha : a.toNat % 2 = 0) (hb : b.toNat % 2 = 0) : (a + b).toNat % 2 = 0 := by
  rw [BitVec.toNat_add]
  omega

theorem toNat_even_of_bit0 {imm : Word} (h : imm.extractLsb' 0 1 = 0#1) : imm.toNat % 2 = 0 := by
  simpa [BitVec.extractLsb'_toNat] using congrArg BitVec.toNat h

/-- Clearing bit 0 rounds down to an even address (44_branch_jump.md R188). -/
theorem jalrTarget_toNat (s : State) (rs1 : Reg) (imm : Word) :
    (jalrTarget s rs1 imm).toNat = (s.x rs1 + imm).toNat / 2 * 2 := by
  have hmask : jalrTarget s rs1 imm = (s.x rs1 + imm) >>> 1 <<< 1 := by
    rw [BitVec.shiftLeft_ushiftRight]
    rfl
  have := (s.x rs1 + imm).isLt
  rw [hmask, BitVec.toNat_shiftLeft, BitVec.toNat_ushiftRight, Nat.shiftLeft_eq, Nat.shiftRight_eq_div_pow]
  omega

theorem branch_pc_even {c : Cond} {signed : Bool} {rs1 rs2 : Reg} {imm : Word} {s t : State}
    (hfit : immFitsB imm = true) (hpc : s.pc.toNat % 2 = 0) (h : branch c signed rs1 rs2 imm s = .next t) :
    t.pc.toNat % 2 = 0 := by
  rw [branch_eq] at h
  cases h
  rw [advance_pc]
  split
  · exact add_even hpc (toNat_even_of_bit0 (bit0_of_fitsB hfit))
  · exact add_even hpc rfl

/-- A transfer with an immediate its encoding can carry goes to an even address. -/
theorem transfer_pc_even {i : Instr} {s t : State} (hi : i.isTransfer = true) (hwf : i.wf = true)
    (hpc : s.pc.toNat % 2 = 0) (h : exec i s = .next t) : t.pc.toNat % 2 = 0 := by
  cases i with
  | beq | bne | blt | bge | bltu | bgeu => exact branch_pc_even hwf hpc h
  | jal rd imm =>
    cases h
    rw [retire_pc]
    exact add_even hpc (toNat_even_of_bit0 (bit0_of_fitsJ hwf))
  | jalr rd rs1 imm =>
    cases h
    rw [retire_pc, target_explicit, jalrTarget_toNat]
    omega
  | _ => cases hi

/-- Settles O18: what a step runs is well-formed, so its target is even, and the advance is 4. -/
theorem evenPcStaysEven : Obligations.EvenPcStaysEven := by
  unfold Obligations.EvenPcStaysEven
  intro s t hpc h
  obtain ⟨hrun, -, i, hd, hexec⟩ := step_next h
  cases hi : i.isTransfer with
  | true => exact transfer_pc_even hi (encodeOfDecodeIsTheWord _ i hd).2 hpc hexec
  | false =>
    have hnext := exec_pc hrun hi hexec
    split at hnext
    · exact hnext ▸ add_even hpc rfl
    · exact hnext ▸ hpc

end Sys2Proof.Machine
end

section
/-! PROOF. The core never reads its print trace (10_state.md R34): every operation answers the same on two states
that differ in the trace alone. -/

namespace Sys2Proof.Machine

/-- The state with another trace. -/
def State.withTrace (s : State) (tr : List PrintEvent) : State := { s with trace := tr }

section
variable (s : State) (tr : List PrintEvent)

theorem withTrace_retire (rd : Reg) (v : Word) (n : NextPc) :
    (s.withTrace tr).retire rd v n = (s.retire rd v n).withTrace tr := by
  unfold State.retire State.setX
  split <;> rfl

end

/-- f appends at most one event to the trace, and on any other trace does the same. -/
def TraceBlind (f : State → Result) : Prop :=
  ∀ (s t : State) (tr : List PrintEvent), f s = .next t →
    ∃ es, es.length ≤ 1 ∧ t.trace = s.trace ++ es ∧ f (s.withTrace tr) = .next (t.withTrace (tr ++ es))

/-! ## The ends of an operation -/

/-- The case without an event. -/
theorem traceBlind_of_silent {f : State → Result} (h : ∀ (s t : State) (tr : List PrintEvent), f s = .next t →
    t.trace = s.trace ∧ f (s.withTrace tr) = .next (t.withTrace tr)) : TraceBlind f := by
  intro s t tr hst
  obtain ⟨htrace, hother⟩ := h s t tr hst
  exact ⟨[], by simp, by simpa using htrace, by simpa using hother⟩

/-- Writing a register with a value, and going to a pc, that do not depend on the trace. -/
theorem traceBlind_retire (rd : Reg) (v : State → Word) (n : State → NextPc)
    (hv : ∀ s tr, v (s.withTrace tr) = v s) (hn : ∀ s tr, n (s.withTrace tr) = n s) :
    TraceBlind fun s => .next (s.retire rd (v s) (n s)) := by
  refine traceBlind_of_silent fun s t tr h => ?_
  cases h
  exact ⟨retire_trace .., by rw [hv, hn, withTrace_retire]⟩

theorem traceBlind_advance (n : State → NextPc) (hn : ∀ s tr, n (s.withTrace tr) = n s) :
    TraceBlind fun s => .next (s.advance (n s)) := by
  refine traceBlind_of_silent fun s t tr h => ?_
  cases h
  exact ⟨rfl, by rw [hn]; rfl⟩

theorem traceBlind_writeMem (m : State → Memory) (hm : ∀ s tr, m (s.withTrace tr) = m s) :
    TraceBlind fun s => .next (({ s with mem := m s } : State).advance .sequential) := by
  refine traceBlind_of_silent fun s t tr h => ?_
  cases h
  exact ⟨rfl, by rw [hm]; rfl⟩

theorem traceBlind_print (e : State → PrintEvent) (he : ∀ s tr, e (s.withTrace tr) = e s) :
    TraceBlind fun s => .next ((s.print (e s)).advance .sequential) := by
  intro s t tr h
  cases h
  exact ⟨[e s], le_rfl, rfl, by simp only [he]; rfl⟩

theorem traceBlind_stop (st : State → Status) (hst : ∀ s tr, st (s.withTrace tr) = st s) :
    TraceBlind fun s => .next (s.stop (st s)) := by
  refine traceBlind_of_silent fun s t tr h => ?_
  cases h
  exact ⟨rfl, by rw [hst]; rfl⟩

/-- A fault is no next state, so there is nothing to compare. -/
theorem traceBlind_raise (c : State → Cause) : TraceBlind fun s => raise (c s) s :=
  fun _ _ _ h => nomatch h

/-- Choosing by a condition that does not depend on the trace. -/
theorem traceBlind_ite {P : State → Prop} [DecidablePred P] {f g : State → Result}
    (hP : ∀ s tr, P (s.withTrace tr) ↔ P s) (hf : TraceBlind f) (hg : TraceBlind g) :
    TraceBlind fun s => if P s then f s else g s := by
  intro s t tr h
  by_cases hs : P s
  · simp only [hs, if_true, hP] at h ⊢
    exact hf s t tr h
  · simp only [hs, if_false, hP] at h ⊢
    exact hg s t tr h

/-! ## The shared operations -/

theorem traceBlind_aluOp (f : Word → Word → Word) (rd rs1 : Reg) (b : Operand) :
    TraceBlind (aluOp f rd rs1 b) :=
  traceBlind_retire rd _ _ (fun _ _ => by cases b <;> rfl) (fun _ _ => rfl)

theorem traceBlind_load (n : Nat) (signed : Bool) (rd rs1 : Reg) (imm : Word) :
    TraceBlind (load n signed rd rs1 imm) := by
  rw [funext (load_eq n signed rd rs1 imm)]
  exact traceBlind_ite (fun _ _ => Iff.rfl) (traceBlind_retire rd _ _ (fun _ _ => rfl) (fun _ _ => rfl))
    (traceBlind_raise _)

theorem traceBlind_store (n : Nat) (rs1 rs2 : Reg) (imm : Word) : TraceBlind (store n rs1 rs2 imm) := by
  rw [funext (store_eq n rs1 rs2 imm)]
  exact traceBlind_ite (fun _ _ => Iff.rfl) (traceBlind_writeMem _ fun _ _ => rfl) (traceBlind_raise _)

theorem traceBlind_sysPrint : TraceBlind sysPrint :=
  traceBlind_ite (fun _ _ => Iff.rfl) (traceBlind_raise _) (traceBlind_print _ fun _ _ => rfl)

theorem traceBlind_execEcall : TraceBlind execEcall :=
  traceBlind_ite (fun _ _ => Iff.rfl) traceBlind_sysPrint <|
    traceBlind_ite (fun _ _ => Iff.rfl) (traceBlind_stop _ fun _ _ => rfl) <|
      traceBlind_ite (fun _ _ => Iff.rfl) (traceBlind_stop _ fun _ _ => rfl) <|
        traceBlind_advance _ fun _ _ => rfl

theorem traceBlind_exec (i : Instr) : TraceBlind (exec i) := by
  cases i with
  | lb | lh | lw | lbu | lhu => exact traceBlind_load _ _ _ _ _
  | sb | sh | sw => exact traceBlind_store _ _ _ _
  | beq | bne | blt | bge | bltu | bgeu => exact traceBlind_advance _ fun _ _ => rfl
  | lui | auipc | jal | jalr => exact traceBlind_retire _ _ _ (fun _ _ => rfl) (fun _ _ => rfl)
  | ecall => exact traceBlind_execEcall
  | ebreak => exact traceBlind_advance _ fun _ _ => rfl
  | _ => exact traceBlind_aluOp _ _ _ _

/-- Settles O25: the cycle reads the status, the pc and Memory, and then runs an instruction that is blind to the
trace. -/
theorem theTraceIsNeverRead : Obligations.TheTraceIsNeverRead := by
  unfold Obligations.TheTraceIsNeverRead
  intro s t tr h
  obtain ⟨hrun, hr, i, hd, hexec⟩ := step_next h
  obtain ⟨es, hlen, htrace, hother⟩ := traceBlind_exec i s t tr hexec
  exact ⟨es, hlen, htrace, (stepRunsTheDecodedInstruction (s.withTrace tr) i hrun hr hd).trans hother⟩

end Sys2Proof.Machine
end

section
/-! PROOF. Registers and comparisons (10_state.md R21; 41_alu.md R113), products (42_muldiv.md R140 to R144), and
the laws of the quotient and the remainder (R145, R147, R150). -/

namespace Sys2Proof.Machine

/-- Settles O24: a register reads what was written to it unless it is x[0]. -/
theorem registerZeroIsHardwired : Obligations.RegisterZeroIsHardwired := by
  unfold Obligations.RegisterZeroIsHardwired
  exact fun s r v => ⟨x_zero s, setX_zero s v, x_setX_self s r v, fun q => x_setX_ne s r q v⟩

/-! ## Comparisons (41_alu.md R113) -/

theorem aluLess_signed (a b : Word) : aluLess true a b = if a.toInt < b.toInt then 1#32 else 0#32 :=
  boolWord_decide _

theorem aluLess_unsigned (a b : Word) : aluLess false a b = if a.toNat < b.toNat then 1#32 else 0#32 :=
  boolWord_decide _

/-- Settles O29: the four compare their operands in one reading or the other. -/
theorem comparesWriteOneOrZero : Obligations.ComparesWriteOneOrZero := by
  unfold Obligations.ComparesWriteOneOrZero
  intro s rd rs1 rs2 imm
  exact ⟨exec_aluOp_onlyRegister rfl (aluLess_signed _ _), exec_aluOp_onlyRegister rfl (aluLess_unsigned _ _),
    exec_aluOp_onlyRegister rfl (aluLess_signed _ _), exec_aluOp_onlyRegister rfl (aluLess_unsigned _ _)⟩

/-! ## Products (42_muldiv.md R141 to R144) -/

theorem mulLow_eq_ofInt (a b : Word) : mulLow a b = BitVec.ofInt 32 (a.toInt * b.toInt) := lowWord_eq _

/-- The low word is the same under either reading (R141). -/
theorem mulLow_eq_ofNat (a b : Word) : mulLow a b = BitVec.ofNat 32 (a.toNat * b.toNat) := by
  rw [mulLow_eq_ofInt, BitVec.ofInt_mul, BitVec.ofInt_toInt, BitVec.ofInt_toInt, BitVec.mul_def]
  rfl

theorem mulHighUU_eq_ofNat (a b : Word) : mulHighUU a b = BitVec.ofNat 32 (a.toNat * b.toNat / 2 ^ 32) := by
  rw [mulHighUU, highWord_eq, ← BitVec.ofInt_natCast]
  norm_num

/-- Settles O30: each instruction applies its product, of which it keeps one half. -/
theorem multiplyReturnsTheExactProduct : Obligations.MultiplyReturnsTheExactProduct := by
  unfold Obligations.MultiplyReturnsTheExactProduct
  intro s rd rs1 rs2
  refine ⟨?mul, exec_aluOp_onlyRegister rfl (highWord_eq _), exec_aluOp_onlyRegister rfl (highWord_eq _),
    exec_aluOp_onlyRegister rfl (mulHighUU_eq_ofNat _ _)⟩
  obtain ⟨t, ht, h⟩ : ∃ t, exec (.mul rd rs1 rs2) s = .next t ∧
      OnlyRegister rd (mulLow (s.x rs1) (s.x rs2)) (s.pc + 4#32) s t := exec_aluOp_onlyRegister rfl rfl
  exact ⟨t, ht, mulLow_eq_ofNat _ _ ▸ h, mulLow_eq_ofInt _ _ ▸ h⟩

/-! ## Truncation (42_muldiv.md R145, R147) -/

/-- A truncated quotient is negative exactly when it is not 0 and the operands' signs differ. -/
theorem tdiv_neg_iff {a b : Int} (hb : b ≠ 0) : a.tdiv b < 0 ↔ a.tdiv b ≠ 0 ∧ (a < 0 ↔ 0 < b) := by
  have hneg := Int.neg_tdiv a b
  rcases lt_or_ge a 0 with ha | ha <;> rcases lt_or_gt_of_ne hb with hb | hb
  · have := Int.tdiv_nonneg_of_nonpos_of_nonpos ha.le hb.le
    omega
  · have := Int.tdiv_nonneg (Int.neg_nonneg_of_nonpos ha.le) hb.le
    omega
  · have := Int.tdiv_nonpos_of_nonneg_of_nonpos ha hb.le
    omega
  · have := Int.tdiv_nonneg ha hb.le
    omega

/-- A remainder is negative exactly when it is not 0 and the dividend is negative. -/
theorem tmod_neg_iff (a b : Int) : a.tmod b < 0 ↔ a.tmod b ≠ 0 ∧ a < 0 := by
  have hneg := Int.neg_tmod a b
  rcases lt_or_ge a 0 with ha | ha
  · have := Int.tmod_nonneg b (Int.neg_nonneg_of_nonpos ha.le)
    omega
  · have := Int.tmod_nonneg b ha
    omega

theorem toInt_ne_zero_iff (v : Word) : v.toInt ≠ 0 ↔ v ≠ 0#32 := by
  rw [ne_eq, ne_eq, ← BitVec.toInt_inj]
  rfl

theorem divSigned_truncates {a b : Word} (hb : b ≠ 0#32) (h : ¬ (a = int32Min ∧ b = allOnes)) :
    (divSigned a b).toInt.natAbs = a.toInt.natAbs / b.toInt.natAbs ∧
      ((divSigned a b).toInt < 0 ↔ divSigned a b ≠ 0#32 ∧ (a.toInt < 0 ↔ 0 < b.toInt)) := by
  rw [← toInt_ne_zero_iff, toInt_divSigned hb h]
  exact ⟨Int.natAbs_tdiv _ _, tdiv_neg_iff ((toInt_ne_zero_iff b).2 hb)⟩

theorem remSigned_truncates {a b : Word} (hb : b ≠ 0#32) (h : ¬ (a = int32Min ∧ b = allOnes)) :
    (remSigned a b).toInt.natAbs = a.toInt.natAbs % b.toInt.natAbs ∧
      ((remSigned a b).toInt < 0 ↔ remSigned a b ≠ 0#32 ∧ a.toInt < 0) := by
  rw [← toInt_ne_zero_iff, toInt_remSigned hb h, ← Int.tmod_def]
  exact ⟨Int.natAbs_tmod _ _, tmod_neg_iff _ _⟩

/-- Settles O31: away from the corners the word holds the truncated quotient, or what it leaves. -/
theorem signedDivisionTruncates : Obligations.SignedDivisionTruncates := by
  unfold Obligations.SignedDivisionTruncates
  intro s rd rs1 rs2 hb h
  exact ⟨exec_aluOp_value rfl (divSigned_truncates hb h), exec_aluOp_value rfl (remSigned_truncates hb h)⟩

/-! ## Quotient and remainder together (42_muldiv.md R150) -/

theorem mul_divSigned_add_remSigned (a b : Word) : b * divSigned a b + remSigned a b = a := by
  by_cases hb : b = 0#32
  · rw [remSigned_zero hb, hb, BitVec.zero_mul, BitVec.zero_add]
  by_cases h : a = int32Min ∧ b = allOnes
  · obtain ⟨rfl, rfl⟩ := h
    rfl
  rw [divSigned, if_neg hb, if_neg h, remSigned, if_neg hb, if_neg h, ofInt_sub, BitVec.ofInt_mul,
    BitVec.ofInt_toInt, BitVec.ofInt_toInt, BitVec.add_comm, BitVec.sub_add_cancel]

theorem mul_divUnsigned_add_remUnsigned (a b : Word) : b * divUnsigned a b + remUnsigned a b = a := by
  by_cases hb : b = 0#32
  · rw [remUnsigned_zero hb, hb, BitVec.zero_mul, BitVec.zero_add]
  apply BitVec.eq_of_toNat_eq
  rw [BitVec.toNat_add, BitVec.toNat_mul, toNat_divUnsigned hb, toNat_remUnsigned hb, Nat.mod_add_mod,
    Nat.div_add_mod, Nat.mod_eq_of_lt a.isLt]

/-- Two ALU or multiply/divide instructions on the same operands leave in x[rd] values for which every law of
their operations holds. -/
theorem exec_aluOp_pair {i j : Instr} {f g : Word → Word → Word} {rd rs1 : Reg} {b : Operand} {s : State}
    {P : Word → Word → Prop} (hrd : rd ≠ 0) (hi : exec i s = aluOp f rd rs1 b s)
    (hj : exec j s = aluOp g rd rs1 b s) (hP : P (f (s.x rs1) (b.value s)) (g (s.x rs1) (b.value s))) :
    ∃ q r, exec i s = .next q ∧ exec j s = .next r ∧ P (q.x rd) (r.x rd) := by
  obtain ⟨q, hq, hqs⟩ := exec_aluOp_onlyRegister hi rfl
  obtain ⟨r, hr, hrs⟩ := exec_aluOp_onlyRegister hj rfl
  exact ⟨q, r, hq, hr, by rwa [hqs.written hrd, hrs.written hrd]⟩

/-- Settles O33: the law holds of the two operations on every pair, the corners among them. -/
theorem quotientAndRemainderRebuildTheDividend : Obligations.QuotientAndRemainderRebuildTheDividend := by
  unfold Obligations.QuotientAndRemainderRebuildTheDividend
  intro s rd rs1 rs2 hrd
  exact ⟨exec_aluOp_pair (P := fun q r => s.x rs2 * q + r = s.x rs1) hrd rfl rfl
      (mul_divSigned_add_remSigned _ _),
    exec_aluOp_pair (P := fun q r => s.x rs2 * q + r = s.x rs1) hrd rfl rfl
      (mul_divUnsigned_add_remUnsigned _ _)⟩

end Sys2Proof.Machine
end

section
/-! PROOF. Loads and stores (43_load_store.md R160 to R173) and the memory they access (20_memory.md R43 to R56):
what an access in range does, and that one out of range only faults. -/

namespace Sys2Proof.Machine

/-! ## Loads -/

section
variable {i : Instr} {n : Nat} {signed : Bool} {rd rs1 rs2 : Reg} {imm v : Word} {s : State}

/-- An instruction whose arm of `exec` is a load in range completes with the load's value, and does nothing else
(43_load_store.md R161). -/
theorem exec_load_onlyRegister (hi : exec i s = load n signed rd rs1 imm s)
    (hr : (effAddr s rs1 imm).toNat + n ≤ s.config.memSize)
    (hv : loadValue n signed (wordOfBytes (s.mem.bytes (effAddr s rs1 imm).toNat n)) = v) :
    ∃ t, exec i s = .next t ∧ OnlyRegister rd v (s.pc + 4#32) s t :=
  ⟨_, by rw [hi, load_eq, if_pos hr, hv], retire_sequential s rd v⟩

theorem exec_load_faults (hi : exec i s = load n signed rd rs1 imm s)
    (ho : s.config.memSize < (effAddr s rs1 imm).toNat + n) :
    AccessFaults i s (effAddr s rs1 imm) n .load :=
  ⟨_, by rw [hi, load_eq, if_neg ho.not_ge]; rfl, enterFault_onlyFaulted s _⟩

/-! ## Stores -/

/-- An instruction whose arm of `exec` is a store in range writes its bytes, and does nothing else
(43_load_store.md R167). -/
theorem exec_store_onlyBytes (hi : exec i s = store n rs1 rs2 imm s) (hwf : s.mem.wf = true)
    (hr : (effAddr s rs1 imm).toNat + n ≤ s.config.memSize) :
    ∃ t, exec i s = .next t ∧ OnlyBytes (effAddr s rs1 imm) n (s.x rs2) (s.pc + 4#32) s t :=
  ⟨_, by rw [hi, store_eq, if_pos hr], setBytes_onlyBytes s _ n _ hwf⟩

theorem exec_store_faults (hi : exec i s = store n rs1 rs2 imm s)
    (ho : s.config.memSize < (effAddr s rs1 imm).toNat + n) :
    AccessFaults i s (effAddr s rs1 imm) n .store :=
  ⟨_, by rw [hi, store_eq, if_neg ho.not_ge]; rfl, enterFault_onlyFaulted s _⟩

end

/-- Settles O34: the five are loads of one, two or four bytes in one extension or the other. -/
theorem loadsDeliverTheirBytes : Obligations.LoadsDeliverTheirBytes := by
  unfold Obligations.LoadsDeliverTheirBytes
  intro s rd rs1 imm a
  refine ⟨rfl, fun hr => ⟨?_, ?_⟩, fun hr => ⟨?_, ?_⟩, fun hr => ?_⟩
  · exact exec_load_onlyRegister rfl hr (loadValue_byte_signed s a)
  · exact exec_load_onlyRegister rfl hr (loadValue_byte_unsigned s a)
  · exact exec_load_onlyRegister rfl hr (loadValue_half_signed s a)
  · exact exec_load_onlyRegister rfl hr (loadValue_half_unsigned s a)
  · exact exec_load_onlyRegister rfl hr (loadValue_word s a)

/-- Settles O35: the three are stores of one, two or four bytes. -/
theorem storesWriteTheirBytes : Obligations.StoresWriteTheirBytes := by
  unfold Obligations.StoresWriteTheirBytes
  intro s rs1 rs2 imm hwf a
  exact ⟨rfl, exec_store_onlyBytes rfl hwf, exec_store_onlyBytes rfl hwf, exec_store_onlyBytes rfl hwf⟩

/-- Settles O36: a load's other arm is the fault, whatever rd is. -/
theorem loadsFaultOutOfRange : Obligations.LoadsFaultOutOfRange := by
  unfold Obligations.LoadsFaultOutOfRange
  intro s rd rs1 imm a
  exact ⟨fun ho => ⟨exec_load_faults rfl ho, exec_load_faults rfl ho⟩,
    fun ho => ⟨exec_load_faults rfl ho, exec_load_faults rfl ho⟩, fun ho => exec_load_faults rfl ho⟩

/-- Settles O37: a store's other arm is the fault, before any byte is written. -/
theorem storesFaultOutOfRange : Obligations.StoresFaultOutOfRange := by
  unfold Obligations.StoresFaultOutOfRange
  intro s rs1 rs2 imm a
  exact ⟨exec_store_faults rfl, exec_store_faults rfl, exec_store_faults rfl⟩

/-! ## MemRead and MemWrite (20_memory.md R43, R44) -/

theorem memRead_of_inRange {s : State} {a : Word} {n : Nat} (hr : a.toNat + n ≤ s.config.memSize) :
    memRead s a n = some (wordOfBytes (s.mem.bytes a.toNat n)) := by
  rw [memRead_eq, if_pos hr]

/-- Two bytes put together by a shift and an or. -/
theorem wordOfBytes_two_shifted (b0 b1 : Byte) :
    wordOfBytes [b0, b1] = b1.setWidth 32 <<< 8 ||| b0.setWidth 32 := by
  simp [wordOfBytes]

theorem wordOfBytes_four_shifted (b0 b1 b2 b3 : Byte) :
    wordOfBytes [b0, b1, b2, b3] =
      b3.setWidth 32 <<< 24 ||| b2.setWidth 32 <<< 16 ||| b1.setWidth 32 <<< 8 ||| b0.setWidth 32 := by
  simp [wordOfBytes, BitVec.shiftLeft_or_distrib]

/-- Settles O38: the bytes of a run put together, one, two or four of them. -/
theorem memReadIsLittleEndian : Obligations.MemReadIsLittleEndian := by
  unfold Obligations.MemReadIsLittleEndian
  intro s addr b
  refine ⟨fun n ho => ?_, fun hr => ?_, fun hr => ?_, fun hr => ?_⟩
  · rw [memRead_eq, if_neg ho.not_ge]
  · rw [memRead_of_inRange hr, wordOfBytes_byteAt]
    rfl
  · rw [memRead_of_inRange hr]
    exact congrArg some (wordOfBytes_two_shifted _ _)
  · rw [memRead_of_inRange hr]
    exact congrArg some (wordOfBytes_four_shifted _ _ _ _)

/-- MemWrite in range: only the bytes of the access differ, and the memory stays in canonical form. -/
theorem memWrite_onlyBytes {s t : State} {a v : Word} {n : Nat} (hwf : s.mem.wf = true)
    (h : memWrite s a n v = some t) : t.mem.wf = true ∧ OnlyBytes a n v s.pc s t := by
  have hmem := memWrite_wf hwf h
  rw [memWrite_eq] at h
  split at h <;> cases h
  exact ⟨hmem, { setBytes_onlyBytes s a n v hwf with pc := rfl }⟩

theorem memWrite_of_inRange {s : State} {a v : Word} {n : Nat} (hr : a.toNat + n ≤ s.config.memSize) :
    ∃ t, memWrite s a n v = some t :=
  ⟨_, by rw [memWrite_eq, if_pos hr]⟩

/-- Settles O39: MemWrite writes the run of the value's low bytes, of any width. -/
theorem memWriteIsLittleEndian : Obligations.MemWriteIsLittleEndian := by
  unfold Obligations.MemWriteIsLittleEndian
  intro s addr v n _ hwf
  refine ⟨fun ho => by rw [memWrite_eq, if_neg ho.not_ge], fun hr => ?_⟩
  obtain ⟨t, ht⟩ := memWrite_of_inRange hr
  exact ⟨t, ht, memWrite_onlyBytes hwf ht⟩

/-! ## Reads inside what was written (20_memory.md R46) -/

section
variable {s t : State} {a v npc : Word} {n k : Nat}

/-- The two bytes k places into the bytes written are those of the value. -/
theorem OnlyBytes.halfAt (h : OnlyBytes a n v npc s t) (hk : k + 2 ≤ n) :
    t.halfAt (a.toNat + k) = v.extractLsb' (8 * k) 16 := by
  rw [State.halfAt, Nat.add_assoc, h.stored (k + 1) (by omega), h.stored k (by omega)]
  exact BitVec.extractLsb'_append_extractLsb'_eq_extractLsb' (by omega)

/-- The word written is read back whole. -/
theorem OnlyBytes.wordAt (h : OnlyBytes a 4 v npc s t) : t.wordAt a.toNat = v := by
  rw [State.wordAt, h.stored 3 (by omega), h.stored 2 (by omega), h.stored 1 (by omega),
    show t.mem.byte a.toNat = _ from h.stored 0 (by omega)]
  repeat rw [BitVec.extractLsb'_append_extractLsb'_eq_extractLsb' (by decide)]
  exact extract_whole v

/-- An access inside one that is in range is in range, and its address does not wrap. -/
theorem memRead_inside (hr : a.toNat + n ≤ t.config.memSize) (m : Nat) (hk : k + m ≤ n) (hm : 0 < m) :
    memRead t (a + BitVec.ofNat 32 k) m = some (wordOfBytes (t.mem.bytes (a.toNat + k) m)) := by
  have hsize := (memSize_bounds t.config).2
  have haddr : (a + BitVec.ofNat 32 k).toNat = a.toNat + k := by
    rw [BitVec.toNat_add, BitVec.toNat_ofNat]
    omega
  rw [memRead_of_inRange (by omega), haddr]

theorem OnlyBytes.memRead_byte (h : OnlyBytes a n v npc s t) (hr : a.toNat + n ≤ t.config.memSize)
    (hk : k + 1 ≤ n) :
    memRead t (a + BitVec.ofNat 32 k) 1 = some ((v.extractLsb' (8 * k) 8).setWidth 32) := by
  rw [memRead_inside hr 1 hk (by decide), wordOfBytes_byteAt, h.stored k hk]

theorem OnlyBytes.memRead_half (h : OnlyBytes a n v npc s t) (hr : a.toNat + n ≤ t.config.memSize)
    (hk : k + 2 ≤ n) :
    memRead t (a + BitVec.ofNat 32 k) 2 = some ((v.extractLsb' (8 * k) 16).setWidth 32) := by
  rw [memRead_inside hr 2 hk (by decide), wordOfBytes_halfAt, h.halfAt hk]

end

/-- Settles O40: each narrower read is k bytes into the word. -/
theorem mixedWidthsSeeBytes : Obligations.MixedWidthsSeeBytes := by
  unfold Obligations.MixedWidthsSeeBytes
  intro s t a v hwf h
  obtain ⟨-, hst⟩ := memWrite_onlyBytes hwf h
  have hr : a.toNat + 4 ≤ t.config.memSize := by
    rw [memWrite_eq] at h
    split at h <;> cases h
    assumption
  have hzero : a + BitVec.ofNat 32 0 = a := BitVec.add_zero a
  refine ⟨hzero ▸ hst.memRead_byte (k := 0) hr (by decide), hst.memRead_byte (k := 1) hr (by decide),
    hst.memRead_byte (k := 2) hr (by decide), hst.memRead_byte (k := 3) hr (by decide),
    hzero ▸ hst.memRead_half (k := 0) hr (by decide), hst.memRead_half (k := 2) hr (by decide),
    hst.memRead_half (k := 1) hr (by decide), ?word⟩
  rw [memRead_of_inRange hr, wordOfBytes_wordAt, hst.wordAt]

/-! ## A store, then a load or a fetch (43_load_store.md R173; 20_memory.md R53, R56) -/

/-- A store leaves the base register, so a load with the same base and immediate reads at the same address. -/
theorem OnlyBytes.effAddr_eq {a v npc : Word} {n : Nat} {s t : State} (h : OnlyBytes a n v npc s t) (rs1 : Reg)
    (imm : Word) : effAddr t rs1 imm = effAddr s rs1 imm := by
  rw [effAddr, effAddr, h.kept]

/-- After a store of n bytes a load of n bytes there puts in x[rd] what it makes of them. -/
theorem exec_load_after_store {i : Instr} {n : Nat} {signed : Bool} {rd rs1 : Reg} {imm v v' npc : Word}
    {s t : State} (hrd : rd ≠ 0) (hst : OnlyBytes (effAddr s rs1 imm) n v npc s t)
    (hr : (effAddr s rs1 imm).toNat + n ≤ s.config.memSize) (hi : exec i t = load n signed rd rs1 imm t)
    (hv : loadValue n signed (wordOfBytes (t.mem.bytes (effAddr s rs1 imm).toNat n)) = v') :
    ∃ u, exec i t = .next u ∧ u.x rd = v' := by
  rw [← hst.effAddr_eq] at hr hv
  rw [← hst.config] at hr
  obtain ⟨u, hu, htu⟩ := exec_load_onlyRegister hi hr hv
  exact ⟨u, hu, htu.written hrd⟩

/-- Settles O41: the load's bytes are the ones the store wrote. -/
theorem storeThenLoadReturnsTheValue : Obligations.StoreThenLoadReturnsTheValue := by
  unfold Obligations.StoreThenLoadReturnsTheValue
  intro s rd rs1 rs2 imm hwf hrd a
  refine ⟨fun hr => ?word, fun hr => ?half, fun hr => ?byte⟩
  case word =>
    obtain ⟨t, ht, hst⟩ := exec_store_onlyBytes (i := .sw rs1 rs2 imm) rfl hwf hr
    obtain ⟨u, hu, hx⟩ := exec_load_after_store (i := .lw rd rs1 imm) hrd hst hr rfl (loadValue_word t a)
    exact ⟨t, u, ht, hu, hx.trans hst.wordAt⟩
  case half =>
    obtain ⟨t, ht, hst⟩ := exec_store_onlyBytes (i := .sh rs1 rs2 imm) rfl hwf hr
    have hhalf : t.halfAt a = (s.x rs2).extractLsb' 0 16 := hst.halfAt (k := 0) (by decide)
    obtain ⟨u, hu, hx⟩ := exec_load_after_store (i := .lhu rd rs1 imm) hrd hst hr rfl
      (loadValue_half_unsigned t a)
    obtain ⟨u', hu', hx'⟩ := exec_load_after_store (i := .lh rd rs1 imm) hrd hst hr rfl
      (loadValue_half_signed t a)
    exact ⟨t, u, u', ht, hu, hhalf ▸ hx, hu', hhalf ▸ hx'⟩
  case byte =>
    obtain ⟨t, ht, hst⟩ := exec_store_onlyBytes (i := .sb rs1 rs2 imm) rfl hwf hr
    have hbyte : t.mem.byte a = (s.x rs2).extractLsb' 0 8 := hst.stored 0 (by decide)
    obtain ⟨u, hu, hx⟩ := exec_load_after_store (i := .lbu rd rs1 imm) hrd hst hr rfl
      (loadValue_byte_unsigned t a)
    obtain ⟨u', hu', hx'⟩ := exec_load_after_store (i := .lb rd rs1 imm) hrd hst hr rfl
      (loadValue_byte_signed t a)
    exact ⟨t, u, u', ht, hu, hbyte ▸ hx, hu', hbyte ▸ hx'⟩

/-- Settles O42: the word at the next pc is the one stored, and the step runs what it decodes to. -/
theorem nextFetchSeesTheStore : Obligations.NextFetchSeesTheStore := by
  unfold Obligations.NextFetchSeesTheStore
  intro s rs1 rs2 imm i hrun hwf haddr hr hd
  have heff : effAddr s rs1 imm = s.pc + 4#32 := haddr
  obtain ⟨t, ht, hst⟩ := exec_store_onlyBytes (i := .sw rs1 rs2 imm) (n := 4) rfl hwf (heff ▸ hr)
  have hpc : t.pc = effAddr s rs1 imm := hst.pc.trans heff.symm
  refine ⟨t, ht, stepRunsTheDecodedInstruction t i (hst.status.trans hrun) ?_ ?_⟩
  · rwa [hst.pc, hst.config]
  · rwa [hpc, hst.wordAt]

end Sys2Proof.Machine
end

section
/-! PROOF. Branches, JALR and AUIPC (44_branch_jump.md R180 to R188; 45_large_immediate.md R201), the system calls
(46_system.md R205 to R211), reset and boot (70_reset_and_hazards.md R250 to R252), and the source's scenario. -/

namespace Sys2Proof.Machine

/-! ## Branches (44_branch_jump.md R180) -/

/-- An instruction whose arm of `exec` is a branch goes to pc + imm when its comparison says P and to pc + 4 when
not, and does nothing else. -/
theorem exec_branch_onlyControl {i : Instr} {c : Cond} {signed : Bool} {rs1 rs2 : Reg} {imm : Word} {s : State}
    {P : Prop} [Decidable P] (hi : exec i s = branch c signed rs1 rs2 imm s)
    (hP : compare c signed (s.x rs1) (s.x rs2) = true ↔ P) :
    ∃ t, exec i s = .next t ∧ OnlyControl (if P then s.pc + imm else s.pc + 4#32) s.status [] s t := by
  refine ⟨_, hi.trans (branch_eq ..), ?_⟩
  simp only [hP]
  split
  · exact advance_onlyControl s (.explicit (s.pc + imm))
  · exact advance_onlyControl s .sequential

/-- Settles O43: the six comparisons, each in the instruction's reading. -/
theorem branchesTakeOrFallThrough : Obligations.BranchesTakeOrFallThrough := by
  unfold Obligations.BranchesTakeOrFallThrough
  intro s rs1 rs2 imm a b
  refine ⟨exec_branch_onlyControl rfl ?eq, exec_branch_onlyControl rfl ?ne, exec_branch_onlyControl rfl ?lt,
    exec_branch_onlyControl rfl ?ge, exec_branch_onlyControl rfl ?ltu, exec_branch_onlyControl rfl ?geu⟩ <;>
    simp [compare, lessThan, a, b]

/-! ## JALR and AUIPC -/

/-- Settles O45: JALR is the jump to the sum with bit 0 cleared, computed before the write. -/
theorem jalrLinksAndJumps : Obligations.JalrLinksAndJumps := by
  unfold Obligations.JalrLinksAndJumps
  intro s rd rs1 imm
  have htarget : jalrTarget s rs1 imm = BitVec.ofNat 32 ((s.x rs1 + imm).toNat / 2 * 2) := by
    rw [← jalrTarget_toNat, BitVec.ofNat_toNat, BitVec.setWidth_eq]
  rw [← htarget]
  exact exec_jump_onlyRegister rfl

theorem exec_auipc_onlyRegister (s : State) (rd : Reg) (imm : Word) :
    ∃ t, exec (.auipc rd imm) s = .next t ∧ OnlyRegister rd (s.pc + imm) (s.pc + 4#32) s t :=
  ⟨_, rfl, retire_sequential s rd _⟩

/-- Settles O47: the opcode alone selects AUIPC, whose sum starts at its own address. -/
theorem auipcAddsThePc : Obligations.AuipcAddsThePc := by
  unfold Obligations.AuipcAddsThePc
  refine ⟨fun w hw => ?_, exec_auipc_onlyRegister⟩
  rw [decode_of_opcode_auipc (opcodeOf_of_mask hw), immU_eq_and]

/-! ## System calls -/

/-- Settles O48: call 64 on an empty buffer or one in range is the appending of its event. -/
theorem ecallPrints : Obligations.EcallPrints := by
  unfold Obligations.EcallPrints
  intro s hcall hr
  have hecall : exec .ecall s = sysPrint s := if_pos hcall
  rcases sysPrint_cases s with ⟨hpos, ho, -⟩ | ⟨-, hp⟩
  · exact absurd hr (not_or.2 ⟨hpos.ne', ho.not_ge⟩)
  · refine ⟨_, _, hecall.trans hp, print_onlyControl s _, rfl, bytes_length .., fun k hk => ?_⟩
    rw [List.getElem?_eq_getElem (by rwa [bytes_length]), bytes_getElem]

/-- Settles O49: call 64 on any other buffer is the fault. -/
theorem ecallPrintFaultsOutOfRange : Obligations.EcallPrintFaultsOutOfRange := by
  unfold Obligations.EcallPrintFaultsOutOfRange
  intro s hcall hlen ho
  have hecall : exec .ecall s = sysPrint s := if_pos hcall
  rcases sysPrint_cases s with ⟨-, -, hp⟩ | ⟨hr, -⟩
  · exact ⟨_, hecall.trans hp, enterFault_onlyFaulted s _⟩
  · exact absurd hr (not_or.2 ⟨hlen, ho.not_ge⟩)

theorem execEcall_exit {s : State} (h : s.x a7 = 93#32) : execEcall s = .next (s.stop (.exited (s.x a0))) := by
  simp [execEcall, h, sysExit]

theorem execEcall_halt {s : State} (h : s.x a7 = 0#32) : execEcall s = .next (s.stop .halted) := by
  simp [execEcall, h, sysHalt]

/-- Settles O50: both calls only stop the run. -/
theorem ecallExitAndHaltEndTheRun : Obligations.EcallExitAndHaltEndTheRun := by
  unfold Obligations.EcallExitAndHaltEndTheRun
  exact fun s => ⟨fun h => ⟨_, execEcall_exit h, stop_onlyControl s _⟩,
    fun h => ⟨_, execEcall_halt h, stop_onlyControl s _⟩⟩

/-- Settles O51: of the four cases of a call number the last is left. -/
theorem ecallOtherwiseDoesNothing : Obligations.EcallOtherwiseDoesNothing := by
  unfold Obligations.EcallOtherwiseDoesNothing
  intro s hcall
  simp only [List.mem_cons, List.not_mem_nil, or_false, not_or] at hcall
  obtain ⟨h0, h64, h93⟩ := hcall
  rcases execEcall_cases s with ⟨h, -⟩ | ⟨h, -⟩ | ⟨h, -⟩ | ⟨-, -, -, he⟩
  · exact absurd h h64
  · exact absurd h h93
  · exact absurd h h0
  · exact ⟨_, he, advance_onlyControl s .sequential⟩

/-- Settles O52: EBREAK is the advance alone. -/
theorem ebreakDoesNothing : Obligations.EbreakDoesNothing := by
  unfold Obligations.EbreakDoesNothing
  exact fun s => ⟨_, rfl, advance_onlyControl s .sequential⟩

/-! ## Reset and boot -/

/-- Settles O53: reset writes the register file, the pc, the status and the trace, and boot what reset leaves. -/
theorem resetLeavesTheSpecsState : Obligations.ResetLeavesTheSpecsState := by
  unfold Obligations.ResetLeavesTheSpecsState
  refine ⟨fun s a r => ⟨x_of_replicate _ r rfl, rfl, rfl, rfl, rfl, rfl⟩, fun k m => ⟨rfl, rfl, rfl⟩, ?_⟩
  exact ⟨Config.default, [], rfl, rfl⟩

/-- Settles O54: a boot is a Running core at RESET_PC. -/
theorem firstFetchOutsideMemoryFaults : Obligations.FirstFetchOutsideMemoryFaults := by
  unfold Obligations.FirstFetchOutsideMemoryFaults
  exact fun k m ho => fetchOutOfRangeFaults (State.boot k m) rfl ho

/-- Settles O55: x[17] is 0 after a boot, so the ECALL is call 0. -/
theorem ecallRightAfterResetHalts : Obligations.EcallRightAfterResetHalts := by
  unfold Obligations.EcallRightAfterResetHalts
  intro k m hr hword
  have hd : decode ((State.boot k m).wordAt (State.boot k m).pc.toNat) = .ok .ecall :=
    (decode_eq_ecall_iff _).2 hword
  rw [stepRunsTheDecodedInstruction (State.boot k m) .ecall rfl hr hd]
  exact (ecallExitAndHaltEndTheRun (State.boot k m)).2 (x_of_replicate _ 17 rfl)

/-! ## The source's scenario -/

/-- Settles O56: the word at the pc decodes to ADD x3, x1, x2, which leaves 5 + 7. -/
theorem sourceAddScenario : Obligations.SourceAddScenario := by
  unfold Obligations.SourceAddScenario
  have hadd : decode 0x002081B3#32 = .ok (.add 3 1 2) := by decide
  refine ⟨hadd, fun s hrun hr hword h1 h2 => ?_, by decide⟩
  obtain ⟨t, ht, hst⟩ : ∃ t, exec (.add 3 1 2) s = .next t ∧
      OnlyRegister 3 (s.x 1 + s.x 2) (s.pc + 4#32) s t := exec_aluOp_onlyRegister rfl rfl
  refine ⟨t, (stepRunsTheDecodedInstruction s _ hrun hr (hword ▸ hadd)).trans ht, ?_, hst.pc⟩
  rw [hst.written (by decide), h1, h2]
  rfl

end Sys2Proof.Machine
end

section
/-! PROOF. The expansions LI, CALL and LA (30_encoding.md R84; 45_large_immediate.md R200). -/

namespace Sys2Proof.Machine

/-! ## Two instructions in a row -/

theorem execAll_one {i : Instr} {s t : State} (h : exec i s = .next t) : execAll [i] s = .next t := by
  rw [execAll, h]
  rfl

theorem execAll_two {i j : Instr} {s t u : State} (h : exec i s = .next t) (h' : exec j t = .next u) :
    execAll [i, j] s = .next u := by
  rw [execAll, h]
  exact execAll_one h'

/-! ## The two parts of a constant -/

theorem loPart_eq (c : Word) : loPart c = (c.extractLsb' 0 12).signExtend 32 := by
  rw [loPart, sext, BitVec.setWidth_eq_extractLsb' (by decide)]

theorem hiPart_add_loPart (c : Word) : hiPart c + loPart c = c := by
  rw [loPart_eq, hiPart, upper_add_lower]

/-- The upper part is one that LUI and AUIPC can carry. -/
theorem hiPart_fits (c : Word) : immFitsU (hiPart c) = true := by
  rw [hiPart, ← immU_eq_and]
  exact immU_fits _

theorem loPart_fits (c : Word) : immFits12 (loPart c) = true := by
  have := signExtend_range (c.extractLsb' 0 12) (by decide)
  norm_num at this
  rw [loPart_eq, immFits12, decide_eq_true_eq]
  omega

/-- A constant whose low twelve bits are zero is its own upper part. -/
theorem hiPart_of_low_zero {c : Word} (h : c &&& 0xFFF#32 = 0#32) : hiPart c = c := by
  have hlow : (c &&& 0xFFF#32).extractLsb' 0 12 = c.extractLsb' 0 12 := by
    rw [BitVec.extractLsb'_and]
    exact BitVec.and_allOnes
  have hlo : loPart c = 0#32 := by
    rw [loPart_eq, ← hlow, h]
    rfl
  calc hiPart c = hiPart c + loPart c := by rw [hlo, BitVec.add_zero]
    _ = c := hiPart_add_loPart c

/-- Settles O57: a constant of twelve bits is ADDI's own, one with a zero lower part LUI's, and any other the sum
of its two parts. -/
theorem loadImmediateBuildsEveryConstant : Obligations.LoadImmediateBuildsEveryConstant := by
  unfold Obligations.LoadImmediateBuildsEveryConstant
  intro s rd c
  rw [Pseudo.expand]
  split
  case isTrue hfit =>
    obtain ⟨t, ht, hst⟩ : ∃ t, exec (.addi rd 0 c) s = .next t ∧ OnlyRegister rd c (s.pc + 4#32) s t :=
      exec_aluOp_onlyRegister rfl (BitVec.zero_add c)
    exact ⟨t, execAll_one ht, hst, List.forall_mem_singleton.2 hfit⟩
  split
  case isTrue hlow =>
    obtain ⟨t, ht, hst⟩ := exec_lui_onlyRegister s rd (hiPart c)
    exact ⟨t, execAll_one ht, hiPart_of_low_zero hlow ▸ hst, List.forall_mem_singleton.2 (hiPart_fits c)⟩
  case isFalse =>
    obtain ⟨t, u, ht, hu, hsu⟩ := exec_lui_addi_onlyRegister s rd (hiPart c) (loPart c)
    exact ⟨u, execAll_two ht hu, hiPart_add_loPart c ▸ hsu,
      List.forall_mem_cons.2 ⟨hiPart_fits c, List.forall_mem_singleton.2 (loPart_fits c)⟩⟩

theorem pc_add_four_add_four (p : Word) : p + 4#32 + 4#32 = p + 8#32 := by
  rw [BitVec.add_assoc]
  rfl

/-- AUIPC and an instruction that adds the lower part to its result reach the offset. -/
theorem auipc_reaches_offset {rd : Reg} {off : Word} {s t : State} (hrd : rd ≠ 0)
    (hst : OnlyRegister rd (s.pc + hiPart off) (s.pc + 4#32) s t) : t.x rd + loPart off = s.pc + off := by
  rw [hst.written hrd, BitVec.add_assoc, hiPart_add_loPart]

/-- Settles O58: AUIPC leaves the upper part's sum in the register that JALR or ADDI reads. -/
theorem callAndLoadAddressReachTheOffset : Obligations.CallAndLoadAddressReachTheOffset := by
  unfold Obligations.CallAndLoadAddressReachTheOffset
  intro s rd off
  refine ⟨?call, fun hrd => ?la⟩
  case call =>
    obtain ⟨t, ht, hst⟩ := exec_auipc_onlyRegister s 1 (hiPart off)
    obtain ⟨u, hu, htu⟩ : ∃ u, exec (.jalr 1 1 (loPart off)) t = .next u ∧
      OnlyRegister 1 (t.pc + 4#32) ((t.x 1 + loPart off) &&& 0xFFFFFFFE#32) t u := exec_jump_onlyRegister rfl
    rw [auipc_reaches_offset (by decide) hst, hst.pc, pc_add_four_add_four] at htu
    exact ⟨u, execAll_two ht hu, hst.trans htu⟩
  case la =>
    obtain ⟨t, ht, hst⟩ := exec_auipc_onlyRegister s rd (hiPart off)
    obtain ⟨u, hu, htu⟩ : ∃ u, exec (.addi rd rd (loPart off)) t = .next u ∧
      OnlyRegister rd (t.x rd + loPart off) (t.pc + 4#32) t u := exec_aluOp_onlyRegister rfl rfl
    rw [auipc_reaches_offset hrd hst, hst.pc, pc_add_four_add_four] at htu
    exact ⟨u, execAll_two ht hu, hst.trans htu⟩

end Sys2Proof.Machine
end
